-- ==== Sys2Proof/Word.lean ====
section
/-! DEFINITION. Bytes, byte strings and the 32-bit command word (00_scope.md R16, R19). -/

namespace Sys2Proof

/-- A byte, an unsigned 8-bit value (R16). -/
abbrev Byte := BitVec 8

/-- A byte string in index order, the first byte supplied or produced at the head (R16, R72). Blocks, keys, IVs,
payloads and outputs are byte strings. -/
abbrev ByteString := List Byte

/-- The 32-bit command word, handed over as one value (R74, R100). -/
abbrev Word := BitVec 32

/-- `zeros(n)`: `n` bytes of 0 (R16). -/
abbrev zeros (n : Nat) : ByteString := List.replicate n 0

end Sys2Proof
end

