-- ==== Sys2Proof/Syntax.lean ====
section
/-! DEFINITION. The commands: what the host hands over, and the ten decoded commands of the opcode table (30_encoding.md
R100, R106, R107). -/

namespace Sys2Proof

/-- One command as the host issues it: the command word and the payload, whose length the transport carries (R100). -/
structure Command where
  word : Word
  payload : ByteString
deriving DecidableEq, Repr

/-- The ten commands, one constructor per row of the opcode map (R107), each with the operand and payload it reads. -/
inductive Instr where
  /-- SET_KEY: the key (R270). -/
  | setKey (key : ByteString)
  /-- SET_IV: the IV (R230). -/
  | setIv (iv : ByteString)
  /-- SET_MODE: the mode code `MODEF`; 7 is reserved and refused in execution (R102, R110, R271). -/
  | setMode (modef : BitVec 3)
  /-- SET_KEYLEN: the key length in bytes, `IMM16` (R105, R272). -/
  | setKeylen (n : Nat)
  /-- CB_ENABLE (R231). -/
  | cbEnable
  /-- CB_DISABLE (R232). -/
  | cbDisable
  /-- PAD_ENABLE (R214). -/
  | padEnable
  /-- PAD_DISABLE (R215). -/
  | padDisable
  /-- ENCRYPT: the plaintext (R130). -/
  | encrypt (data : ByteString)
  /-- DECRYPT: the ciphertext (R131). -/
  | decrypt (data : ByteString)
deriving DecidableEq, Repr

end Sys2Proof
end

