-- ==== Sys2Proof/WellFormed.lean ====
section
/-! DEFINITION. Which commands the encoding can express (30_encoding.md R102, R105, R106). -/

namespace Sys2Proof

/-- The one bound that the type of a command does not carry: the length of SET_KEYLEN is a 16-bit field (R105).
`MODEF` is three bits by its type (R102), and a payload is any finite byte string (R15, R106). -/
def Instr.wf : Instr → Bool
  | .setKeylen n => decide (n < 65536)
  | .setKey _ => true
  | .setIv _ => true
  | .setMode _ => true
  | .cbEnable => true
  | .cbDisable => true
  | .padEnable => true
  | .padDisable => true
  | .encrypt _ => true
  | .decrypt _ => true

end Sys2Proof
end

