-- ==== Sys2Proof/Decode.lean ====
section
/-! DEFINITION. Decoding a command, total and rejecting by name (30_encoding.md R100 to R111), and the encoder written
from the same table. -/

namespace Sys2Proof

/-- Why decode raises `IllegalCommand`, one name per check of R108. -/
inductive DecodeError where
  /-- The opcode is none of the ten assigned values (R101, R109). -/
  | unassignedOpcode
  /-- `RSV` is not 0 (R103). -/
  | reservedBits
  /-- `MODEF` is not 0 on an opcode other than SET_MODE (R100). -/
  | strayModef
  /-- `IMM16` is not 0 on an opcode other than SET_KEYLEN (R100). -/
  | strayImm16
  /-- A payload on a command that takes none (R106). -/
  | strayPayload
deriving DecidableEq, Repr

/-- `OPC = cmd[7:0]` (R101). -/
def Word.opc (w : Word) : BitVec 8 := w.extractLsb' 0 8

/-- `MODEF = cmd[10:8]` (R102). -/
def Word.modef (w : Word) : BitVec 3 := w.extractLsb' 8 3

/-- `RSV = cmd[15:11]` (R103). -/
def Word.rsv (w : Word) : BitVec 5 := w.extractLsb' 11 5

/-- `IMM16 = cmd[31:16]` (R105). -/
def Word.imm16 (w : Word) : BitVec 16 := w.extractLsb' 16 16

/-- Whether an opcode's command takes no payload (R106). -/
def takesNoPayload (opc : BitVec 8) : Bool :=
  opc == 0x03 || opc == 0x04 || opc == 0x05 || opc == 0x06 || opc == 0x07 || opc == 0x08

/-- The row of the opcode map that an opcode selects, with the operand and the payload filled in (R107). -/
def decodeRow (c : Command) : Option Instr :=
  match c.word.opc with
  | 0x01 => some (.setKey c.payload)
  | 0x02 => some (.setIv c.payload)
  | 0x03 => some (.setMode c.word.modef)
  | 0x04 => some (.setKeylen c.word.imm16.toNat)
  | 0x05 => some .cbEnable
  | 0x06 => some .cbDisable
  | 0x07 => some .padEnable
  | 0x08 => some .padDisable
  | 0x10 => some (.encrypt c.payload)
  | 0x11 => some (.decrypt c.payload)
  | _ => none

/-- `Decode(cmd, payload)`: the checks of R108 in their order, then the row. -/
def decode (c : Command) : Except DecodeError Instr :=
  match decodeRow c with
  | none => .error .unassignedOpcode
  | some i =>
    if c.word.rsv ≠ 0 then .error .reservedBits
    else if c.word.opc ≠ 0x03 ∧ c.word.modef ≠ 0 then .error .strayModef
    else if c.word.opc ≠ 0x04 ∧ c.word.imm16 ≠ 0 then .error .strayImm16
    else if takesNoPayload c.word.opc ∧ c.payload ≠ [] then .error .strayPayload
    else .ok i

/-- The opcode of a command's row (R107). -/
def Instr.opc : Instr → BitVec 8
  | .setKey _ => 0x01
  | .setIv _ => 0x02
  | .setMode _ => 0x03
  | .setKeylen _ => 0x04
  | .cbEnable => 0x05
  | .cbDisable => 0x06
  | .padEnable => 0x07
  | .padDisable => 0x08
  | .encrypt _ => 0x10
  | .decrypt _ => 0x11

/-- A command word from its fields, most significant first: `IMM16`, `RSV`, `MODEF`, `OPC` (R100). -/
def packWord (imm16 : BitVec 16) (rsv : BitVec 5) (modef : BitVec 3) (opc : BitVec 8) : Word :=
  imm16 ++ rsv ++ modef ++ opc

/-- The encoder: the command word of a command's row, with its operand in the field that carries it, and its payload
(R100, R107). -/
def encode (i : Instr) : Command :=
  match i with
  | .setKey key => ⟨packWord 0 0 0 i.opc, key⟩
  | .setIv iv => ⟨packWord 0 0 0 i.opc, iv⟩
  | .setMode modef => ⟨packWord 0 0 modef i.opc, []⟩
  | .setKeylen n => ⟨packWord (BitVec.ofNat 16 n) 0 0 i.opc, []⟩
  | .cbEnable => ⟨packWord 0 0 0 i.opc, []⟩
  | .cbDisable => ⟨packWord 0 0 0 i.opc, []⟩
  | .padEnable => ⟨packWord 0 0 0 i.opc, []⟩
  | .padDisable => ⟨packWord 0 0 0 i.opc, []⟩
  | .encrypt data => ⟨packWord 0 0 0 i.opc, data⟩
  | .decrypt data => ⟨packWord 0 0 0 i.opc, data⟩

/-- One row of the opcode map: a word `cmd` selects the row when `cmd AND mask = match` (R107). -/
structure OpcodeRow where
  mnemonic : String
  pattern : Word
  mask : Word
deriving DecidableEq, Repr

/-- The row of a command (R107). -/
def Instr.row : Instr → OpcodeRow
  | .setKey _ => ⟨"SET_KEY", 0x00000001, 0xFFFFFFFF⟩
  | .setIv _ => ⟨"SET_IV", 0x00000002, 0xFFFFFFFF⟩
  | .setMode _ => ⟨"SET_MODE", 0x00000003, 0xFFFFF8FF⟩
  | .setKeylen _ => ⟨"SET_KEYLEN", 0x00000004, 0x0000FFFF⟩
  | .cbEnable => ⟨"CB_ENABLE", 0x00000005, 0xFFFFFFFF⟩
  | .cbDisable => ⟨"CB_DISABLE", 0x00000006, 0xFFFFFFFF⟩
  | .padEnable => ⟨"PAD_ENABLE", 0x00000007, 0xFFFFFFFF⟩
  | .padDisable => ⟨"PAD_DISABLE", 0x00000008, 0xFFFFFFFF⟩
  | .encrypt _ => ⟨"ENCRYPT", 0x00000010, 0xFFFFFFFF⟩
  | .decrypt _ => ⟨"DECRYPT", 0x00000011, 0xFFFFFFFF⟩

/-- The opcode map, in the table's order (R107). -/
def opcodeTable : List OpcodeRow :=
  [(Instr.setKey []).row, (Instr.setIv []).row, (Instr.setMode 0).row, (Instr.setKeylen 0).row, Instr.cbEnable.row,
    Instr.cbDisable.row, Instr.padEnable.row, Instr.padDisable.row, (Instr.encrypt []).row, (Instr.decrypt []).row]

/-- Whether a word selects a row (R107). -/
def OpcodeRow.selects (r : OpcodeRow) (w : Word) : Bool := w &&& r.mask == r.pattern

/-- The command that a row of the opcode table stands for: the word of its `nbits` bits, and no payload (log entry 12). -/
def tableCommand (nbits w : Nat) : Command := ⟨BitVec.ofNat 32 (w % 2 ^ nbits), []⟩

/-- The command that the decoder reads from a word numbered as the opcode table numbers it. -/
def decodeTableWord (nbits w : Nat) : Option Instr :=
  match decode (tableCommand nbits w) with
  | .ok i => some i
  | .error _ => none

end Sys2Proof
end

