-- ==== Sys2Proof/Config.lean ====
section
/-! DEFINITION. The names the parameters range over, and the implementation parameters of 00_scope.md section 3 as ONE
constant without a body: of it only the spec's own assumptions are known (log entries 4, 5, 6, 7 and 8). -/

namespace Sys2Proof

/-- The seven modes of operation, in the order of their codes 0 to 6 (30_encoding.md R104). -/
inductive Mode where
  | ecb
  | cbc
  | cfb
  | cfb8
  | ofb
  | ctr
  | stream
deriving DecidableEq, Repr

/-- The direction of a data command: `ENC` or `DEC` (00_scope.md R20). -/
inductive Dir where
  | enc
  | dec
deriving DecidableEq, Repr

/-- The execution strategies a selection may take (10_state.md R44). -/
inductive Backend where
  | internal
  | accelerated
deriving DecidableEq, Repr

/-- The kind of the attached primitive: a block transform, or "itself a stream function" (00_scope.md R10, R11, R13). -/
inductive Primitive where
  | block
  | stream
deriving DecidableEq, Repr

/-- The implementation parameters of one instance, fixed for its lifetime (00_scope.md R9 to R14; 45_backend.md R255),
with what the spec assumes of them and nothing else. -/
structure Params where
  /-- `B`, the block size in bytes (R9). -/
  blockSize : Nat
  /-- `E(k, b)`, the forward block transform (R10). -/
  encryptBlock : ByteString → ByteString → ByteString
  /-- `D(k, b)`, the inverse block transform (R10). -/
  decryptBlock : ByteString → ByteString → ByteString
  /-- `setup_key(k)`, the primitive's key expansion; its result is internal to the primitive (R10, R45). -/
  setupKey : ByteString → ByteString
  /-- `StreamInit(k, iv)` (R11). -/
  streamInit : ByteString → ByteString → ByteString
  /-- `StreamXform(dir, s, data)`, which returns `(out, s')` (R11). -/
  streamXform : Dir → ByteString → ByteString → ByteString × ByteString
  /-- `KEY_LENGTHS`, the supported key lengths in bytes (R12). -/
  keyLengths : List Nat
  /-- Which kind of primitive is attached (R13). -/
  primitive : Primitive
  /-- `SUPPORTED_MODES`, the modes the primitive can express (R13). -/
  supportedModes : List Mode
  /-- `Select(mode, key length, continuous-buffer flag, b)`: whether the selector may take `b` (R14). -/
  select : Mode → Nat → Bool → Backend → Bool
  /-- The backend the `t`-th selection takes: a draw under no law but `Select` (R14, 45_backend.md R250; log entry 8). -/
  backendDraw : Nat → Mode → Nat → Bool → Backend
  /-- `B >= 1` (R9). -/
  blockSize_pos : 0 < blockSize
  /-- `B <= 255`, so that a pad count fits in a byte (R9). -/
  blockSize_le : blockSize ≤ 255
  /-- `E(k, ·)` maps a block to a block (R10). -/
  encryptBlock_length : ∀ k b : ByteString, b.length = blockSize → (encryptBlock k b).length = blockSize
  /-- `D(k, ·)` maps a block to a block (R10). -/
  decryptBlock_length : ∀ k b : ByteString, b.length = blockSize → (decryptBlock k b).length = blockSize
  /-- `D(k, E(k, b)) = b` for every supported key and block (R10). -/
  decrypt_encrypt : ∀ k b : ByteString, k.length ∈ keyLengths → b.length = blockSize →
    decryptBlock k (encryptBlock k b) = b
  /-- `len(out) = len(data)` (R11). -/
  streamXform_length : ∀ d s data, (streamXform d s data).1.length = data.length
  /-- Decrypting from the same stream state undoes encrypting (R11). -/
  stream_decrypt_encrypt : ∀ s data, (streamXform .dec s (streamXform .enc s data).1).1 = data
  /-- A key length fits in the 16 bits of `KEY_LEN` (R37; log entry 5). -/
  keyLengths_lt : ∀ n ∈ keyLengths, n < 65536
  /-- The algorithm supports some key length (R12; log entry 5). -/
  keyLengths_ne : keyLengths ≠ []
  /-- "For a block primitive it is a subset of {ECB, CBC, CFB, CFB8, OFB, CTR}" (R13). -/
  supportedModes_block : primitive = .block → ∀ m ∈ supportedModes, m ∈ [Mode.ecb, .cbc, .cfb, .cfb8, .ofb, .ctr]
  /-- "For a stream primitive it is {STREAM}" (R13). -/
  supportedModes_stream : primitive = .stream → ∀ m, m ∈ supportedModes ↔ m = .stream
  /-- The primitive expresses some mode (R13; log entry 6). -/
  supportedModes_ne : supportedModes ≠ []
  /-- `Internal` is always admitted (45_backend.md R250). -/
  select_internal : ∀ m n c, select m n c .internal = true
  /-- A selection takes a backend that `Select` admits (45_backend.md R250). -/
  select_backendDraw : ∀ t m n c, select m n c (backendDraw t m n c) = true

namespace Config

/-- A set of parameters shown only to establish that the assumptions of `Params` can be met together. It is no
parameter of the hardware: no definition of the model reads it through `paramsFrom`, which has no body. -/
abbrev paramsExist : Inhabited Params :=
  ⟨{ blockSize := 1
     encryptBlock := fun _ b => b
     decryptBlock := fun _ b => b
     setupKey := fun k => k
     streamInit := fun k _ => k
     streamXform := fun _ s data => (data, s)
     keyLengths := [1]
     primitive := .block
     supportedModes := [.ecb]
     select := fun _ _ _ _ => true
     backendDraw := fun _ _ _ _ => .internal
     blockSize_pos := by decide
     blockSize_le := by decide
     encryptBlock_length := fun _ _ h => h
     decryptBlock_length := fun _ _ h => h
     decrypt_encrypt := fun _ _ _ _ => rfl
     streamXform_length := fun _ _ _ => rfl
     stream_decrypt_encrypt := fun _ _ => rfl
     keyLengths_lt := by decide
     keyLengths_ne := by decide
     supportedModes_block := by decide
     supportedModes_stream := fun h => by cases h
     supportedModes_ne := by decide
     select_internal := fun _ _ _ => rfl
     select_backendDraw := fun _ _ _ _ => rfl }⟩

/-- The parameters of the instance, given that some exist. It has NO BODY: nothing in Lean can say which they are, so
a claim about the machine holds of every set of parameters that the spec allows (log entry 4). -/
opaque paramsFrom (exist : Inhabited Params) : Params

/-- The parameters of the instance being modelled. -/
abbrev params : Params := paramsFrom paramsExist

end Config

end Sys2Proof
end

