-- ==== Sys2Proof/Machine/State.lean ====
section
/-! DEFINITION. The state of the machine as plain data, the statuses it answers, and reset (10_state.md R30 to R57,
60_exceptions.md R301, 70_reset_and_hazards.md R330). -/

namespace Sys2Proof.Machine

/-- The hardware faults: there are none. "No behaviour of this block is treated as fault" (93_implementation_defined.md,
section 1); an error of a command is a status in a next state (60_exceptions.md R300). -/
inductive Fault where
deriving DecidableEq, Repr

/-- Why the model has no meaning for a command. -/
inductive Refusal where
  /-- An arm of `exec` that has no meaning yet; no arm is left so. Safe: the model stops where the hardware goes on. -/
  | notModelled (mnemonic : String)
deriving DecidableEq, Repr

/-- The errors a command can raise (60_exceptions.md R301). -/
inductive ErrorKind where
  /-- "missing/invalid key, IV, or mode before use": ENCRYPT and DECRYPT (R302). -/
  | configurationError
  /-- "key/IV/length outside algorithm's supported set": SET_KEY, SET_KEYLEN, SET_IV, ENCRYPT, DECRYPT (R303). -/
  | lengthError
  /-- "decrypt-time padding validation failure": DECRYPT (R305). -/
  | paddingError
  /-- "a mode requested that a given Block Primitive/backend cannot express": SET_MODE (R306). -/
  | unsupportedModeError
  /-- The word or payload is not one the encoding assigns: decode (R307). -/
  | illegalCommand
deriving DecidableEq, Repr

/-- The status of an answer (R301). -/
inductive Status where
  | ok
  | error (e : ErrorKind)
deriving DecidableEq, Repr

/-- The answer to a command: its status and its output (30_encoding.md R115). -/
structure Answer where
  status : Status
  out : ByteString
deriving DecidableEq, Repr

/-- One streaming-state set `S[d]` (10_state.md R46 to R50). -/
structure Stream where
  /-- `S[d].IV`, the chaining register, `B` bytes (R47). -/
  iv : ByteString
  /-- `S[d].KS`, the keystream buffer, `B` bytes (R48). -/
  ks : ByteString
  /-- `S[d].POS`, the cursor into `KS`, `0..B-1`; 0 when no block is buffered (R49). -/
  pos : Nat
  /-- `S[d].SST`, none or a state of the stream primitive (R50; log entry 7). -/
  sst : Option ByteString
deriving DecidableEq, Repr

/-- The complete state of 10_state.md R57, and three fields of the model's own: `draws`, `pending` and `answers`. -/
structure State where
  /-- `MODE`; the code 7 never appears (R33). -/
  mode : Mode
  /-- `MODE_VALID` (R34). -/
  modeValid : Bool
  /-- `KEY` (R35). -/
  key : ByteString
  /-- `KEY_SET` (R36). -/
  keySet : Bool
  /-- `KEY_LEN`, in bytes (R37). -/
  keyLen : Nat
  /-- `KEYLEN_LOCK` (R38). -/
  keylenLock : Bool
  /-- `IV_CFG`, `B` bytes (R39). -/
  ivCfg : ByteString
  /-- `IV_SET` (R40). -/
  ivSet : Bool
  /-- `PAD_EN` (R41). -/
  padEn : Bool
  /-- `CB_EN`, one bit for both directions (R42, R233). -/
  cbEn : Bool
  /-- `CHANGED` (R43). -/
  changed : Bool
  /-- `BACKEND` (R44). -/
  backend : Backend
  /-- `KSCHED`, none until the first setup (R45; log entry 7). -/
  ksched : Option ByteString
  /-- `S[ENC]` (R46). -/
  enc : Stream
  /-- `S[DEC]` (R46). -/
  dec : Stream
  /-- The model's own: how many backend selections have been drawn (R14, R250; log entry 8). -/
  draws : Nat
  /-- The model's own: the commands the host has issued and the engine has not begun, oldest first (R6, R80; log
  entry 1). -/
  pending : List Command
  /-- The model's own: the answers given so far, oldest first (R23; log entry 3). -/
  answers : List Answer
deriving DecidableEq, Repr

/-- The streaming-state set right after reset: `IV` and `KS` all zeros, `POS` 0, `SST` none (R47 to R50, R330). -/
def Stream.reset : Stream :=
  { iv := zeros Config.params.blockSize
    ks := zeros Config.params.blockSize
    pos := 0
    sst := none }

/-- The machine right after reset (70_reset_and_hazards.md R330). -/
def State.reset : State :=
  { mode := .ecb
    modeValid := false
    key := []
    keySet := false
    keyLen := 0
    keylenLock := false
    ivCfg := zeros Config.params.blockSize
    ivSet := false
    padEn := true
    cbEn := false
    changed := true
    backend := .internal
    ksched := none
    enc := Stream.reset
    dec := Stream.reset
    draws := 0
    pending := []
    answers := [] }

end Sys2Proof.Machine
end

