-- ==== Sys2Proof/Machine/Ops.lean ====
section
/-! DEFINITION. The shared operations: byte-string arithmetic (00_scope.md R16 to R18), the streaming-state registers
(10_state.md R46 to R52), the backend draw (45_backend.md R250), and answering a command, an error among the answers
(00_scope.md R21, 60_exceptions.md R304). -/

namespace Sys2Proof.Machine

/-- `xor(a, b)` for `len(a) = len(b)` (R17). -/
def xorBytes (a b : ByteString) : ByteString := List.zipWith (· ^^^ ·) a b

/-- `be_val(s)`, with `s[0]` the most significant byte (R18). -/
def beVal : ByteString → Nat
  | [] => 0
  | b :: s => b.toNat * 256 ^ s.length + beVal s

/-- `be_bytes(n, v)`, the `n`-byte string whose value is `v mod 256^n` (R18). -/
def beBytes : Nat → Nat → ByteString
  | 0, _ => []
  | n + 1, v => BitVec.ofNat 8 (v / 256 ^ n) :: beBytes n v

/-- `Inc(v) = be_bytes(B, be_val(v) + 1)` (42_feedback_modes.md R189). -/
def inc (P : Params) (v : ByteString) : ByteString := beBytes P.blockSize (beVal v + 1)

/-- `blocks(s)`: block `i` is bytes `iB` to `iB + B - 1` (R16, 20_memory.md R72). -/
def blocks (n : Nat) (s : ByteString) : List ByteString :=
  (List.range (s.length / n)).map fun i => (s.drop (i * n)).take n

/-- `for each x in data`: transforms the bytes in index order, threading the working state (R20). -/
def forEachByte (f : Byte → Stream → Byte × Stream) : ByteString → Stream → ByteString × Stream
  | [], w => ([], w)
  | x :: xs, w =>
    let (y, w1) := f x w
    let (ys, w2) := forEachByte f xs w1
    (y :: ys, w2)

/-- `Fresh()`, read from `IV_CFG` at the moment it is evaluated (10_state.md R52). -/
def fresh (P : Params) (s : State) : Stream :=
  { iv := s.ivCfg, ks := zeros P.blockSize, pos := 0, sst := none }

/-- Reads `S[d]` (R46). -/
def State.stream (s : State) : Dir → Stream
  | .enc => s.enc
  | .dec => s.dec

/-- `S[d] <- w` (R46). -/
def State.setStream (s : State) (d : Dir) (w : Stream) : State :=
  match d with
  | .enc => { s with enc := w }
  | .dec => { s with dec := w }

/-- `S[ENC] <- Fresh(); S[DEC] <- Fresh()` (R52). -/
def resetStreams (P : Params) (s : State) : State :=
  { s with enc := fresh P s, dec := fresh P s }

/-- `BACKEND <- any b such that Select(MODE, KEY_LEN, CB_EN, b)`: the next free value (45_backend.md R250; log entry 8). -/
def drawBackend (P : Params) (s : State) : State :=
  { s with backend := P.backendDraw s.draws s.mode s.keyLen s.cbEn, draws := s.draws + 1 }

/-- Gives the host the answer to the current command (30_encoding.md R115, 00_scope.md R23). -/
def State.answer (s : State) (status : Status) (out : ByteString) : State :=
  { s with answers := s.answers ++ [⟨status, out⟩] }

/-- `raise e`: the machine's one way of taking an error. Every register is left as it was before the command began, and
the answer is the error's status with the empty output (R21, R300, R304). The return from it is the next command, in the
unchanged state (R310). -/
def raise (e : ErrorKind) (s : State) : State := s.answer (.error e) []

/-- Ends a command begun in state `s`: its output and its writes if it succeeded, else the error, all-or-nothing (R21,
R304). -/
def finish (s : State) (r : Except ErrorKind (ByteString × State)) : State :=
  match r with
  | .ok (out, s') => s'.answer .ok out
  | .error e => raise e s

/-- The numeric code of a status (R301). -/
def Status.code : Status → BitVec 8
  | .ok => 0x00
  | .error .configurationError => 0x01
  | .error .lengthError => 0x02
  | .error .paddingError => 0x03
  | .error .unsupportedModeError => 0x04
  | .error .illegalCommand => 0x05

end Sys2Proof.Machine
end

