-- ==== Sys2Proof/Machine/Operands.lean ====
section
/-! DEFINITION. What a command operates on: the mode an operand names (30_encoding.md R104), the key lengths and modes
the parameters admit (00_scope.md R12, R13), and the working state of a data command (40_crypt.md R139, R140). -/

namespace Sys2Proof.Machine

/-- The code of a mode (R104). -/
def modeCode : Mode → BitVec 3
  | .ecb => 0
  | .cbc => 1
  | .cfb => 2
  | .cfb8 => 3
  | .ofb => 4
  | .ctr => 5
  | .stream => 6

/-- The mode a code names; 7 is reserved and names none (R104). -/
def modeOfCode (code : BitVec 3) : Option Mode :=
  match code with
  | 0 => some .ecb
  | 1 => some .cbc
  | 2 => some .cfb
  | 3 => some .cfb8
  | 4 => some .ofb
  | 5 => some .ctr
  | 6 => some .stream
  | _ => none

/-- The mode that SET_MODE's operand selects, if the code is not reserved and the primitive can express the mode (R110,
46_configuration.md R271). -/
def selectedMode (P : Params) (modef : BitVec 3) : Option Mode :=
  match modeOfCode modef with
  | some m => if m ∈ P.supportedModes then some m else none
  | none => none

/-- Whether SET_KEY accepts a key of length `n`: a supported length and, once SET_KEYLEN has fixed one, that length
(46_configuration.md R270). -/
def acceptsKeyLength (P : Params) (s : State) (n : Nat) : Bool :=
  decide (n ∈ P.keyLengths) && (!s.keylenLock || n == s.keyLen)

/-- The IV-consuming modes `IVMODES` (40_crypt.md R133). -/
def usesIv : Mode → Bool
  | .ecb => false
  | .cbc => true
  | .cfb => true
  | .cfb8 => true
  | .ofb => true
  | .ctr => true
  | .stream => false

/-- The state the mode runs on: `S[d]` with `CB_EN = 1`, else `Fresh()` (40_crypt.md R139). -/
def workingStream (P : Params) (d : Dir) (s : State) : Stream :=
  if s.cbEn then s.stream d else fresh P s

/-- The working state is written to `S[d]` only when `CB_EN = 1` (40_crypt.md R140). -/
def writeBack (d : Dir) (w : Stream) (s : State) : State :=
  if s.cbEn then s.setStream d w else s

end Sys2Proof.Machine
end

