-- ==== Sys2Proof/Machine/Configuration.lean ====
section
/-! DEFINITION. SET_KEY, SET_MODE and SET_KEYLEN (46_configuration.md R270 to R273). -/

namespace Sys2Proof.Machine

/-- `SET_KEY(k)` (R270). -/
def setKeyCmd (P : Params) (k : ByteString) (s : State) : Except ErrorKind (ByteString × State) :=
  if acceptsKeyLength P s k.length then
    .ok ([], { s with key := k, keyLen := k.length, keySet := true, changed := true })
  else .error .lengthError

/-- `SET_MODE(m)` (R271). -/
def setModeCmd (P : Params) (modef : BitVec 3) (s : State) : Except ErrorKind (ByteString × State) :=
  match selectedMode P modef with
  | some m => .ok ([], { s with mode := m, modeValid := true, changed := true })
  | none => .error .unsupportedModeError

/-- `SET_KEYLEN(n)` (R272). -/
def setKeylenCmd (P : Params) (n : Nat) (s : State) : Except ErrorKind (ByteString × State) :=
  if n ∈ P.keyLengths then
    .ok ([], { s with keyLen := n, keylenLock := true, changed := true })
  else .error .lengthError

/-- SET_KEY (R270). -/
def execSetKey (k : ByteString) (s : State) : Host.Outcome State Fault Refusal :=
  .next (finish s (setKeyCmd Config.params k s))

/-- SET_MODE (R271). -/
def execSetMode (modef : BitVec 3) (s : State) : Host.Outcome State Fault Refusal :=
  .next (finish s (setModeCmd Config.params modef s))

/-- SET_KEYLEN (R272). -/
def execSetKeylen (n : Nat) (s : State) : Host.Outcome State Fault Refusal :=
  .next (finish s (setKeylenCmd Config.params n s))

end Sys2Proof.Machine
end

