-- ==== Sys2Proof/Machine/Flags.lean ====
section
/-! DEFINITION. The configuration flags as ENCRYPT and DECRYPT read them (10_state.md R32): whether a mode pads, and the
checks that run before any byte is processed, in the order of 60_exceptions.md R308. There are no arithmetic flags. -/

namespace Sys2Proof.Machine

/-- `paddable`, which is derived from the mode: true for ECB and CBC only (10_state.md R54). -/
def paddable : Mode → Bool
  | .ecb => true
  | .cbc => true
  | .cfb => false
  | .cfb8 => false
  | .ofb => false
  | .ctr => false
  | .stream => false

/-- `CheckMode()` (40_crypt.md R134). -/
def checkMode (s : State) : Option ErrorKind :=
  if s.modeValid = false then some .configurationError else none

/-- `CheckKey()` (40_crypt.md R135). -/
def checkKey (s : State) : Option ErrorKind :=
  if s.keySet = false ∨ s.key.length ≠ s.keyLen then some .configurationError else none

/-- `CheckIV()` (40_crypt.md R136). -/
def checkIv (s : State) : Option ErrorKind :=
  if usesIv s.mode = true ∧ s.ivSet = false then some .configurationError else none

/-- Whether the block loop needs data whose length is a multiple of `B`: in ECB and CBC, a DECRYPT always and an ENCRYPT
with `PAD_EN = 0` (40_crypt.md R137). -/
def needsWholeBlocks (d : Dir) (s : State) : Bool :=
  match d with
  | .enc => paddable s.mode && !s.padEn
  | .dec => paddable s.mode

/-- `CheckLength(d, data)` (40_crypt.md R137). -/
def checkLength (P : Params) (d : Dir) (data : ByteString) (s : State) : Option ErrorKind :=
  if needsWholeBlocks d s = true ∧ data.length % P.blockSize ≠ 0 then some .lengthError else none

/-- The first check of a data command that fails, if any does (40_crypt.md R132; priority 60_exceptions.md R308). -/
def cryptCheck (P : Params) (d : Dir) (data : ByteString) (s : State) : Option ErrorKind :=
  (checkMode s).or ((checkKey s).or ((checkIv s).or (checkLength P d data s)))

end Sys2Proof.Machine
end

