-- ==== Sys2Proof/Machine/Padding.lean ====
section
/-! DEFINITION. The padding unit: PKCS#7 insert and remove, PAD_ENABLE and PAD_DISABLE (43_padding.md R210 to R217). -/

namespace Sys2Proof.Machine

/-- How many pad bytes `Pad` appends to a string of length `len`: 1 to `B` (R211). -/
def padCount (P : Params) (len : Nat) : Nat := P.blockSize - len % P.blockSize

/-- `Pad(x)`: `n` copies of the byte `n` (R211). -/
def pad (P : Params) (x : ByteString) : ByteString :=
  x ++ List.replicate (padCount P x.length) (BitVec.ofNat 8 (padCount P x.length))

/-- `Unpad(y)`: the last byte is the count; the bytes before it are not looked at (R212, R213). -/
def unpad (P : Params) (y : ByteString) : Except ErrorKind ByteString :=
  match y.getLast? with
  | none => .error .paddingError
  | some n =>
    if n.toNat = 0 ∨ n.toNat > P.blockSize then .error .paddingError
    else .ok (y.take (y.length - n.toNat))

/-- `Pad` on the data of an ENCRYPT in ECB or CBC, bypassed with `PAD_EN = 0` (R210). -/
def padIfEnabled (P : Params) (padEn : Bool) (x : ByteString) : ByteString :=
  if padEn then pad P x else x

/-- `Unpad` on the result of a DECRYPT in ECB or CBC, bypassed with `PAD_EN = 0` (R210). -/
def unpadIfEnabled (P : Params) (padEn : Bool) (y : ByteString) : Except ErrorKind ByteString :=
  if padEn then unpad P y else .ok y

/-- PAD_ENABLE: `PAD_EN <- 1` and nothing else (R214). -/
def execPadEnable (s : State) : Host.Outcome State Fault Refusal :=
  .next (finish s (.ok ([], { s with padEn := true })))

/-- PAD_DISABLE: `PAD_EN <- 0` and nothing else (R215). -/
def execPadDisable (s : State) : Host.Outcome State Fault Refusal :=
  .next (finish s (.ok ([], { s with padEn := false })))

end Sys2Proof.Machine
end

