-- ==== Sys2Proof/Machine/BlockModes.lean ====
section
/-! DEFINITION. The block modes ECB and CBC (41_block_modes.md R160 to R165). -/

namespace Sys2Proof.Machine

/-- `ECB_ENC`; the working state is neither read nor written (R160). -/
def ecbEnc (P : Params) (key : ByteString) (padEn : Bool) (data : ByteString) : ByteString :=
  (blocks P.blockSize (padIfEnabled P padEn data)).flatMap fun b => P.encryptBlock key b

/-- `ECB_DEC` (R161). -/
def ecbDec (P : Params) (key : ByteString) (padEn : Bool) (data : ByteString) : Except ErrorKind ByteString :=
  unpadIfEnabled P padEn ((blocks P.blockSize data).flatMap fun c => P.decryptBlock key c)

/-- The loop of `CBC_ENC` over the blocks, from the chaining value `c`: the output and the last ciphertext block (R162). -/
def cbcEncLoop (P : Params) (key : ByteString) : List ByteString → ByteString → ByteString × ByteString
  | [], c => ([], c)
  | b :: bs, c =>
    let c1 := P.encryptBlock key (xorBytes b c)
    let (out, last) := cbcEncLoop P key bs c1
    (c1 ++ out, last)

/-- `CBC_ENC` (R162). -/
def cbcEnc (P : Params) (key : ByteString) (padEn : Bool) (data : ByteString) (w : Stream) : ByteString × Stream :=
  let (out, last) := cbcEncLoop P key (blocks P.blockSize (padIfEnabled P padEn data)) w.iv
  (out, { w with iv := last })

/-- The loop of `CBC_DEC` over the blocks: the chaining value is the previous ciphertext block (R163). -/
def cbcDecLoop (P : Params) (key : ByteString) : List ByteString → ByteString → ByteString × ByteString
  | [], prev => ([], prev)
  | c :: cs, prev =>
    let (out, last) := cbcDecLoop P key cs c
    (xorBytes (P.decryptBlock key c) prev ++ out, last)

/-- `CBC_DEC` (R163). -/
def cbcDec (P : Params) (key : ByteString) (padEn : Bool) (data : ByteString) (w : Stream) :
    Except ErrorKind (ByteString × Stream) :=
  let (y, last) := cbcDecLoop P key (blocks P.blockSize data) w.iv
  match unpadIfEnabled P padEn y with
  | .error e => .error e
  | .ok out => .ok (out, { w with iv := last })

end Sys2Proof.Machine
end

