-- ==== Sys2Proof/Machine/FeedbackModes.lean ====
section
/-! DEFINITION. The feedback and stream modes CFB, CFB8, OFB, CTR and STREAM (42_feedback_modes.md R180 to R194), each as
what it does with ONE byte, but for STREAM, which hands the data over whole. -/

namespace Sys2Proof.Machine

/-- The keystream byte in use, `w.KS[w.POS]` (R180). `POS` is below the length of `KS` in every reachable state; elsewhere
the model reads 0 (log entry 10). -/
def keystreamByte (w : Stream) : Byte := w.ks.getD w.pos 0

/-- `w.POS <- (w.POS + 1) mod B` (R180). -/
def advance (P : Params) (w : Stream) : Stream := { w with pos := (w.pos + 1) % P.blockSize }

/-- CFB: at `POS = 0` a new keystream block `E(KEY, w.IV)` (R181, R182). -/
def cfbRefill (P : Params) (key : ByteString) (w : Stream) : Stream :=
  if w.pos = 0 then { w with ks := P.encryptBlock key w.iv } else w

/-- One byte of `CFB_ENC`: the ciphertext byte, the output, is fed back in place (R181). -/
def cfbEncByte (P : Params) (key : ByteString) (x : Byte) (w : Stream) : Byte × Stream :=
  let w1 := cfbRefill P key w
  let y := x ^^^ keystreamByte w1
  (y, advance P { w1 with iv := w1.iv.set w1.pos y })

/-- One byte of `CFB_DEC`: the ciphertext byte, the input, is fed back in place (R182). -/
def cfbDecByte (P : Params) (key : ByteString) (x : Byte) (w : Stream) : Byte × Stream :=
  let w1 := cfbRefill P key w
  let y := x ^^^ keystreamByte w1
  (y, advance P { w1 with iv := w1.iv.set w1.pos x })

/-- CFB8's key byte, the leading byte of one block encryption of the window (R183). -/
def cfb8KeyByte (P : Params) (key : ByteString) (w : Stream) : Byte := (P.encryptBlock key w.iv).headD 0

/-- `w.IV <- w.IV[1..B) ++ [c]` (R183). -/
def shiftWindow (c : Byte) (w : Stream) : Stream := { w with iv := w.iv.drop 1 ++ [c] }

/-- One byte of `CFB8_ENC`: the output byte enters the window (R183). -/
def cfb8EncByte (P : Params) (key : ByteString) (x : Byte) (w : Stream) : Byte × Stream :=
  let y := x ^^^ cfb8KeyByte P key w
  (y, shiftWindow y w)

/-- One byte of `CFB8_DEC`: the input byte enters the window (R184). -/
def cfb8DecByte (P : Params) (key : ByteString) (x : Byte) (w : Stream) : Byte × Stream :=
  (x ^^^ cfb8KeyByte P key w, shiftWindow x w)

/-- OFB: at `POS = 0`, `w.IV <- E(KEY, w.IV); w.KS <- w.IV` (R185). -/
def ofbRefill (P : Params) (key : ByteString) (w : Stream) : Stream :=
  if w.pos = 0 then { w with iv := P.encryptBlock key w.iv, ks := P.encryptBlock key w.iv } else w

/-- One byte of `OFB_XFORM`, either direction (R185, R186). -/
def ofbByte (P : Params) (key : ByteString) (x : Byte) (w : Stream) : Byte × Stream :=
  let w1 := ofbRefill P key w
  (x ^^^ keystreamByte w1, advance P w1)

/-- CTR: at `POS = 0`, `w.KS <- E(KEY, w.IV); w.IV <- Inc(w.IV)` (R187). -/
def ctrRefill (P : Params) (key : ByteString) (w : Stream) : Stream :=
  if w.pos = 0 then { w with ks := P.encryptBlock key w.iv, iv := inc P w.iv } else w

/-- One byte of `CTR_XFORM`, either direction (R187, R188). -/
def ctrByte (P : Params) (key : ByteString) (x : Byte) (w : Stream) : Byte × Stream :=
  let w1 := ctrRefill P key w
  (x ^^^ keystreamByte w1, advance P w1)

/-- CFB in direction `d` (R181, R182). -/
def cfbXform (P : Params) (key : ByteString) (d : Dir) (data : ByteString) (w : Stream) : ByteString × Stream :=
  match d with
  | .enc => forEachByte (cfbEncByte P key) data w
  | .dec => forEachByte (cfbDecByte P key) data w

/-- CFB8 in direction `d` (R183, R184). -/
def cfb8Xform (P : Params) (key : ByteString) (d : Dir) (data : ByteString) (w : Stream) : ByteString × Stream :=
  match d with
  | .enc => forEachByte (cfb8EncByte P key) data w
  | .dec => forEachByte (cfb8DecByte P key) data w

/-- `OFB_XFORM` (R185, R186). -/
def ofbXform (P : Params) (key : ByteString) (data : ByteString) (w : Stream) : ByteString × Stream :=
  forEachByte (ofbByte P key) data w

/-- `CTR_XFORM` (R187, R188). -/
def ctrXform (P : Params) (key : ByteString) (data : ByteString) (w : Stream) : ByteString × Stream :=
  forEachByte (ctrByte P key) data w

/-- The stream state STREAM runs on: `w.SST`, or `StreamInit(KEY, IV_CFG)` when there is none (R190). -/
def streamState (P : Params) (key ivCfg : ByteString) (w : Stream) : ByteString :=
  match w.sst with
  | some s => s
  | none => P.streamInit key ivCfg

/-- STREAM in direction `d` (R190, R191). -/
def streamMode (P : Params) (key ivCfg : ByteString) (d : Dir) (data : ByteString) (w : Stream) :
    ByteString × Stream :=
  let (out, s') := P.streamXform d (streamState P key ivCfg w) data
  (out, { w with sst := some s' })

end Sys2Proof.Machine
end

