-- ==== Sys2Proof/Machine/Crypt.lean ====
section
/-! DEFINITION. ENCRYPT and DECRYPT: the lazy setup, the mode dispatch and the shared procedure (40_crypt.md R130 to
R147). -/

namespace Sys2Proof.Machine

/-- `Setup()`, the lazy re-initialisation (R138, 45_backend.md R253). -/
def setup (P : Params) (s : State) : State :=
  { resetStreams P (drawBackend P { s with ksched := some (P.setupKey s.key) }) with changed := false }

/-- `if CHANGED = 1: Setup()` (R132). -/
def lazySetup (P : Params) (s : State) : State := if s.changed then setup P s else s

/-- `ModeFn(MODE, d, data, w)`, one arm per mode code and direction (R141). -/
def modeFn (P : Params) (s : State) (d : Dir) (data : ByteString) (w : Stream) :
    Except ErrorKind (ByteString × Stream) :=
  match s.mode, d with
  | .ecb, .enc => .ok (ecbEnc P s.key s.padEn data, w)
  | .ecb, .dec =>
    match ecbDec P s.key s.padEn data with
    | .error e => .error e
    | .ok out => .ok (out, w)
  | .cbc, .enc => .ok (cbcEnc P s.key s.padEn data w)
  | .cbc, .dec => cbcDec P s.key s.padEn data w
  | .cfb, d => .ok (cfbXform P s.key d data w)
  | .cfb8, d => .ok (cfb8Xform P s.key d data w)
  | .ofb, _ => .ok (ofbXform P s.key data w)
  | .ctr, _ => .ok (ctrXform P s.key data w)
  | .stream, d => .ok (streamMode P s.key s.ivCfg d data w)

/-- `Crypt(d, data)` after its checks: the setup, the mode on the working state, and the write-back (R132). -/
def cryptBody (P : Params) (d : Dir) (data : ByteString) (s : State) : Except ErrorKind (ByteString × State) :=
  match modeFn P (lazySetup P s) d data (workingStream P d (lazySetup P s)) with
  | .error e => .error e
  | .ok (out, w) => .ok (out, writeBack d w (lazySetup P s))

/-- `Crypt(d, data)` (R132). -/
def crypt (P : Params) (d : Dir) (data : ByteString) (s : State) : Except ErrorKind (ByteString × State) :=
  match cryptCheck P d data s with
  | some e => .error e
  | none => cryptBody P d data s

/-- ENCRYPT (R130). -/
def execEncrypt (data : ByteString) (s : State) : Host.Outcome State Fault Refusal :=
  .next (finish s (crypt Config.params .enc data s))

/-- DECRYPT (R131). -/
def execDecrypt (data : ByteString) (s : State) : Host.Outcome State Fault Refusal :=
  .next (finish s (crypt Config.params .dec data s))

end Sys2Proof.Machine
end

