-- ==== Sys2Proof/Machine/Streaming.lean ====
section
/-! DEFINITION. SET_IV, CB_ENABLE and CB_DISABLE (44_streaming_control.md R230 to R233). -/

namespace Sys2Proof.Machine

/-- `SET_IV(v)`: both directions restart from the new `IV_CFG` (R230). -/
def setIvCmd (P : Params) (v : ByteString) (s : State) : Except ErrorKind (ByteString × State) :=
  if v.length = P.blockSize then
    .ok ([], resetStreams P { s with ivCfg := v, ivSet := true })
  else .error .lengthError

/-- The leftover and the stream state of one direction cleared; `IV` and `KS` stay (R231). -/
def clearCursor (w : Stream) : Stream := { w with pos := 0, sst := none }

/-- `CB_ENABLE()`: no effect when already enabled (R231). -/
def cbEnableCmd (P : Params) (s : State) : Except ErrorKind (ByteString × State) :=
  if s.cbEn then .ok ([], s)
  else .ok ([], drawBackend P { s with cbEn := true, enc := clearCursor s.enc, dec := clearCursor s.dec })

/-- `CB_DISABLE()`: no effect when already disabled (R232). -/
def cbDisableCmd (P : Params) (s : State) : Except ErrorKind (ByteString × State) :=
  if s.cbEn then .ok ([], drawBackend P (resetStreams P { s with cbEn := false }))
  else .ok ([], s)

/-- SET_IV (R230). -/
def execSetIv (v : ByteString) (s : State) : Host.Outcome State Fault Refusal :=
  .next (finish s (setIvCmd Config.params v s))

/-- CB_ENABLE (R231). -/
def execCbEnable (s : State) : Host.Outcome State Fault Refusal :=
  .next (finish s (cbEnableCmd Config.params s))

/-- CB_DISABLE (R232). -/
def execCbDisable (s : State) : Host.Outcome State Fault Refusal :=
  .next (finish s (cbDisableCmd Config.params s))

end Sys2Proof.Machine
end

