-- ==== Sys2Proof/Machine/Dispatch.lean ====
section
/-! DEFINITION. The dispatch of a decoded command to its meaning, one arm per row of the opcode map (30_encoding.md R107). -/

namespace Sys2Proof.Machine

def exec (i : Instr) (s : State) : Host.Outcome State Fault Refusal :=
  match i with
  | .setKey key => Sys2Proof.Machine.execSetKey key s
  | .setIv iv => Sys2Proof.Machine.execSetIv iv s
  | .setMode modef => Sys2Proof.Machine.execSetMode modef s
  | .setKeylen n => Sys2Proof.Machine.execSetKeylen n s
  | .cbEnable => Sys2Proof.Machine.execCbEnable s
  | .cbDisable => Sys2Proof.Machine.execCbDisable s
  | .padEnable => Sys2Proof.Machine.execPadEnable s
  | .padDisable => Sys2Proof.Machine.execPadDisable s
  | .encrypt data => Sys2Proof.Machine.execEncrypt data s
  | .decrypt data => Sys2Proof.Machine.execDecrypt data s

end Sys2Proof.Machine
end

