-- ==== Sys2Proof/Machine/Step.lean ====
section
/-! DEFINITION. One step: the engine takes the next command the host has issued, decodes it and executes it (00_scope.md
R6, R7; 20_memory.md R80; 30_encoding.md R108). -/

namespace Sys2Proof.Machine

/-- One step of the machine. With no command issued the engine waits, unchanged (log entry 2). A command that does not
decode raises `IllegalCommand` and has no other effect (R108). -/
def step (s : State) : Host.Outcome State Fault Refusal :=
  match s.pending with
  | [] => .next s
  | c :: rest =>
    match decode c with
    | .ok i => exec i { s with pending := rest }
    | .error _ => .next (raise .illegalCommand { s with pending := rest })

/-- `s` with the command that a row of the opcode table stands for issued as the very next one (log entries 1 and 12). -/
def State.withFetchWord (s : State) (nbits w : Nat) : State :=
  { s with pending := tableCommand nbits w :: s.pending }

end Sys2Proof.Machine
end

