-- ==== Sys2Proof/Machine/Assembler.lean ====
section
/-! DEFINITION. The assembler syntax, one command per line (30_encoding.md R113, R114). A line is a list of characters,
without its line end (log entry 15). -/

namespace Sys2Proof.Machine

/-- What a line assembles to: nothing for a comment, else its command word and its payload (R113). -/
inductive AsmLine where
  | comment
  | command (c : Command)
deriving DecidableEq, Repr

/-- A decimal digit's value. -/
def decDigit (c : Char) : Option Nat :=
  if 48 ≤ c.toNat ∧ c.toNat ≤ 57 then some (c.toNat - 48) else none

/-- A hexadecimal digit's value; both cases are read (log entry 15). -/
def hexDigit (c : Char) : Option Nat :=
  if 65 ≤ c.toNat ∧ c.toNat ≤ 70 then some (c.toNat - 55)
  else if 97 ≤ c.toNat ∧ c.toNat ≤ 102 then some (c.toNat - 87)
  else decDigit c

/-- Pairs of hexadecimal digits as bytes, byte 0 first (R113). -/
def hexBytes : List Char → Option ByteString
  | [] => some []
  | [_] => none
  | h :: l :: rest =>
    match hexDigit h, hexDigit l, hexBytes rest with
    | some a, some b, some bs => some (BitVec.ofNat 8 (16 * a + b) :: bs)
    | _, _, _ => none

/-- `""`, the operand that writes the empty payload (R113). -/
def emptyPayload : List Char := [Char.ofNat 34, Char.ofNat 34]

/-- The hexadecimal digits of an operand, less an optional `0x` (R113). -/
def dropHexPrefix : List Char → List Char
  | '0' :: 'x' :: digits => digits
  | digits => digits

/-- `<hex>`: the payload (R113). -/
def parseHex (operand : List Char) : Option ByteString :=
  if operand = emptyPayload then some []
  else if dropHexPrefix operand = [] then none
  else hexBytes (dropHexPrefix operand)

/-- The value of decimal digits, from the value of those before them. -/
def parseDigits : List Char → Nat → Option Nat
  | [], n => some n
  | c :: cs, n =>
    match decDigit c with
    | some d => parseDigits cs (10 * n + d)
    | none => none

/-- `<n>`: a decimal byte count 0 to 65535 (R113). -/
def parseLength (operand : List Char) : Option Nat :=
  if operand = [] then none
  else (parseDigits operand 0).filter fun n => decide (n < 65536)

/-- `<mode>`: the name of a mode (R113). -/
def parseMode (operand : List Char) : Option Mode :=
  if operand = "ECB".toList then some .ecb
  else if operand = "CBC".toList then some .cbc
  else if operand = "CFB".toList then some .cfb
  else if operand = "CFB8".toList then some .cfb8
  else if operand = "OFB".toList then some .ofb
  else if operand = "CTR".toList then some .ctr
  else if operand = "STREAM".toList then some .stream
  else none

/-- A mnemonic that takes one operand, with it; mnemonics are upper case (R113). -/
def parseWithOperand (mnemonic operand : List Char) : Option Instr :=
  if mnemonic = "SET_MODE".toList then (parseMode operand).map fun m => .setMode (modeCode m)
  else if mnemonic = "SET_KEYLEN".toList then (parseLength operand).map .setKeylen
  else if mnemonic = "SET_KEY".toList then (parseHex operand).map .setKey
  else if mnemonic = "SET_IV".toList then (parseHex operand).map .setIv
  else if mnemonic = "ENCRYPT".toList then (parseHex operand).map .encrypt
  else if mnemonic = "DECRYPT".toList then (parseHex operand).map .decrypt
  else none

/-- A mnemonic that takes no operand (R113). -/
def parseBare (mnemonic : List Char) : Option Instr :=
  if mnemonic = "CB_ENABLE".toList then some .cbEnable
  else if mnemonic = "CB_DISABLE".toList then some .cbDisable
  else if mnemonic = "PAD_ENABLE".toList then some .padEnable
  else if mnemonic = "PAD_DISABLE".toList then some .padDisable
  else none

/-- A line's mnemonic, and its operand if a space follows it (log entry 15). -/
def splitLine : List Char → List Char × Option (List Char)
  | [] => ([], none)
  | c :: cs =>
    if c = ' ' then ([], some cs)
    else
      let (mnemonic, operand) := splitLine cs
      (c :: mnemonic, operand)

/-- The command that a line writes (R113). -/
def parseLine (line : List Char) : Option Instr :=
  match splitLine line with
  | (mnemonic, none) => parseBare mnemonic
  | (mnemonic, some operand) => parseWithOperand mnemonic operand

/-- Assembles one line: a comment, one command, or (none) no line of the syntax (R113, R114). -/
def assemble (line : List Char) : Option AsmLine :=
  if line.head? = some ';' then some .comment
  else (parseLine line).map fun i => .command (encode i)

end Sys2Proof.Machine
end

