-- ==== Sys2Proof/Safety.lean ====
section
/-! DEFINITION. The terms in which claims about the machine are stated: the invariant of its registers, when a data
command runs, where its stream starts, which states differ in the backend alone, and the line forms of the assembler. -/

namespace Sys2Proof.Safety

open Sys2Proof.Machine

/-- A streaming-state set has the widths of its rule: `B` bytes of `IV` and `KS`, and `POS` in `0..B-1` (10_state.md R47
to R49). -/
structure StreamShape (P : Params) (w : Stream) : Prop where
  iv_length : w.iv.length = P.blockSize
  ks_length : w.ks.length = P.blockSize
  pos_lt : w.pos < P.blockSize

/-- A streaming-state set at rest: `IV = IV_CFG`, `POS = 0`, `SST = none` (10_state.md R53). -/
structure AtRest (ivCfg : ByteString) (w : Stream) : Prop where
  iv : w.iv = ivCfg
  pos : w.pos = 0
  sst : w.sst = none

/-- R53: whenever `CB_EN = 0` between commands, both streams are at rest. -/
def RestInv (s : State) : Prop := s.cbEn = false → AtRest s.ivCfg s.enc ∧ AtRest s.ivCfg s.dec

/-- What every reachable state satisfies: the widths and the written-before-read rules of 10_state.md R33 to R53, and the
freshness of the key schedule and of the backend choice (20_memory.md R84, 45_backend.md R250). -/
structure Inv (P : Params) (s : State) : Prop where
  /-- `IV_CFG` is `B` bytes (R39). -/
  ivCfg_length : s.ivCfg.length = P.blockSize
  /-- `IV_CFG` is zero-filled if unset (R39). -/
  ivCfg_unset : s.ivSet = false → s.ivCfg = zeros P.blockSize
  /-- `S[ENC]` has its widths (R47 to R49). -/
  enc_shape : StreamShape P s.enc
  /-- `S[DEC]` has its widths (R47 to R49). -/
  dec_shape : StreamShape P s.dec
  /-- The streams are at rest while `CB_EN = 0` (R53). -/
  rest : RestInv s
  /-- A mode that is valid is one the primitive can express (R33). -/
  mode_supported : s.modeValid = true → s.mode ∈ P.supportedModes
  /-- `KEY` holds its reset value until a key is accepted (R35). -/
  key_unset : s.keySet = false → s.key = []
  /-- The length of a key that is set is supported (R35). -/
  key_length : s.keySet = true → s.key.length ∈ P.keyLengths
  /-- `KEY_LEN` is at most 16 bits (R37). -/
  keyLen_lt : s.keyLen < 65536
  /-- A length fixed by SET_KEYLEN is supported (R38, R272). -/
  keyLen_locked : s.keylenLock = true → s.keyLen ∈ P.keyLengths
  /-- `KEY_LEN` differs from the key's length only when SET_KEYLEN changed it (R135). -/
  keyLen_key : s.keySet = true → s.keylenLock = false → s.key.length = s.keyLen
  /-- The key schedule is never stale (R45, R84). -/
  ksched_fresh : s.changed = false → s.ksched = some (P.setupKey s.key)
  /-- The backend is one `Select` admits for the configuration it was chosen for (R250). -/
  backend_admitted : s.changed = false → P.select s.mode s.keyLen s.cbEn s.backend = true
  /-- The lazy setup has run only after the checks passed once (R138). -/
  changed_first : s.changed = false → s.modeValid = true ∧ s.keySet = true

/-- The configuration checks of a data command pass (40_crypt.md R134, R135, R136). -/
structure Ready (s : State) : Prop where
  mode : s.modeValid = true
  keySet : s.keySet = true
  keyLen : s.key.length = s.keyLen
  iv : usesIv s.mode = true → s.ivSet = true

/-- The length check of a data command passes: in ECB and CBC, a DECRYPT always and an ENCRYPT with `PAD_EN = 0` needs a
multiple of `B` (40_crypt.md R137). -/
def LengthOk (P : Params) (d : Dir) (data : ByteString) (s : State) : Prop :=
  (s.mode = .ecb ∨ s.mode = .cbc) → (d = .dec ∨ s.padEn = false) → data.length % P.blockSize = 0

/-- The data command of a direction: ENCRYPT or DECRYPT (40_crypt.md R130, R131). -/
def cryptInstr (d : Dir) (data : ByteString) : Instr :=
  match d with
  | .enc => .encrypt data
  | .dec => .decrypt data

/-- Where the stream of a data command starts: at `S[d]` when `CB_EN = 1` and no setup is due, else at `Fresh()`
(40_crypt.md R138, R139). -/
def startStream (P : Params) (d : Dir) (s : State) : Stream :=
  if s.cbEn = true ∧ s.changed = false then s.stream d else fresh P s

/-- Block `j` of a byte string (20_memory.md R72). -/
def blockAt (n : Nat) (s : ByteString) (j : Nat) : ByteString := (s.drop (j * n)).take n

/-- Two states that agree in everything but `BACKEND` and the model's count of the draws (45_backend.md R251). -/
def SameButBackend (s t : State) : Prop :=
  t = { s with backend := t.backend, draws := t.draws }

/-- Two states that agree in the registers an ECB answer may depend on: all but `IV_CFG`, `IV_SET`, `CB_EN` and the streams
(41_block_modes.md R165). -/
def SameButIv (s t : State) : Prop :=
  t = { s with ivCfg := t.ivCfg, ivSet := t.ivSet, cbEn := t.cbEn, enc := t.enc, dec := t.dec }

/-- A character is a hexadecimal digit of value `v`, in either case (30_encoding.md R113; the case is log entry 15). -/
def IsHexDigit (c : Char) (v : Nat) : Prop :=
  "0123456789ABCDEF".toList[v]? = some c ∨ "0123456789abcdef".toList[v]? = some c

/-- A text is the bytes `p` as two hexadecimal digits each, byte 0 first (R113). -/
inductive HexText : List Char → ByteString → Prop where
  | nil : HexText [] []
  | cons {h l : Char} {a b : Nat} {text : List Char} {p : ByteString} : IsHexDigit h a → IsHexDigit l b →
      HexText text p → HexText (h :: l :: text) (BitVec.ofNat 8 (16 * a + b) :: p)

/-- `<hex>`, the operand that writes a payload: its digits, optionally prefixed `0x`, and `""` for the empty one (R113). -/
def HexOperand (text : List Char) (p : ByteString) : Prop :=
  (p = [] ∧ text = ['"', '"']) ∨ (p ≠ [] ∧ (HexText text p ∨ ∃ digits, text = '0' :: 'x' :: digits ∧ HexText digits p))

/-- `<n>`, the operand that writes a byte count 0 to 65535 in decimal digits (R113; leading zeros are log entry 15). -/
def DecOperand (text : List Char) (n : Nat) : Prop :=
  ∃ digits : List Nat, digits ≠ [] ∧ (∀ d ∈ digits, d < 10) ∧ text = digits.map Nat.digitChar ∧
    n = digits.foldl (fun v d => 10 * v + d) 0 ∧ n < 65536

/-- The line forms of the assembler and the command each writes: the mnemonic of the opcode map, then at most one operand
(R113; the one space between them is log entry 15). -/
inductive LineForm : List Char → Instr → Prop where
  | setKey {text : List Char} {p : ByteString} : HexOperand text p → LineForm ("SET_KEY".toList ++ ' ' :: text) (.setKey p)
  | setIv {text : List Char} {p : ByteString} : HexOperand text p → LineForm ("SET_IV".toList ++ ' ' :: text) (.setIv p)
  | encrypt {text : List Char} {p : ByteString} : HexOperand text p → LineForm ("ENCRYPT".toList ++ ' ' :: text) (.encrypt p)
  | decrypt {text : List Char} {p : ByteString} : HexOperand text p → LineForm ("DECRYPT".toList ++ ' ' :: text) (.decrypt p)
  | setKeylen {text : List Char} {n : Nat} : DecOperand text n → LineForm ("SET_KEYLEN".toList ++ ' ' :: text) (.setKeylen n)
  | ecb : LineForm "SET_MODE ECB".toList (.setMode 0)
  | cbc : LineForm "SET_MODE CBC".toList (.setMode 1)
  | cfb : LineForm "SET_MODE CFB".toList (.setMode 2)
  | cfb8 : LineForm "SET_MODE CFB8".toList (.setMode 3)
  | ofb : LineForm "SET_MODE OFB".toList (.setMode 4)
  | ctr : LineForm "SET_MODE CTR".toList (.setMode 5)
  | stream : LineForm "SET_MODE STREAM".toList (.setMode 6)
  | cbEnable : LineForm "CB_ENABLE".toList .cbEnable
  | cbDisable : LineForm "CB_DISABLE".toList .cbDisable
  | padEnable : LineForm "PAD_ENABLE".toList .padEnable
  | padDisable : LineForm "PAD_DISABLE".toList .padDisable

end Sys2Proof.Safety
end

