-- ==== Sys2Proof/Certificates/Slice0/Obligations.lean ====
section
/-! DEFINITION. The statements about the machine, each the rule of spec/ that its docstring names. The parameters are
`Config.params` throughout, of which only the assumptions of `Params` are known, so each statement speaks of every instance
the spec allows. -/

open Sys2Proof Sys2Proof.Machine Sys2Proof.Safety

/-! ## Encoding -/

/-- The worked words of 30_encoding.md R107, its seven SET_MODE words among them, and the word of each other opcode decode to
the commands they stand for. -/
def Obligations.WorkedWordsDecode : Prop :=
  (∀ d, decode ⟨0x00000001, d⟩ = .ok (.setKey d)) ∧
  (∀ d, decode ⟨0x00000002, d⟩ = .ok (.setIv d)) ∧
  decode ⟨0x00000003, []⟩ = .ok (.setMode 0) ∧
  decode ⟨0x00000103, []⟩ = .ok (.setMode 1) ∧
  decode ⟨0x00000203, []⟩ = .ok (.setMode 2) ∧
  decode ⟨0x00000303, []⟩ = .ok (.setMode 3) ∧
  decode ⟨0x00000403, []⟩ = .ok (.setMode 4) ∧
  decode ⟨0x00000503, []⟩ = .ok (.setMode 5) ∧
  decode ⟨0x00000603, []⟩ = .ok (.setMode 6) ∧
  decode ⟨0x00000703, []⟩ = .ok (.setMode 7) ∧
  decode ⟨0x00100004, []⟩ = .ok (.setKeylen 16) ∧
  decode ⟨0xFFFF0004, []⟩ = .ok (.setKeylen 65535) ∧
  decode ⟨0x00000005, []⟩ = .ok .cbEnable ∧
  decode ⟨0x00000006, []⟩ = .ok .cbDisable ∧
  decode ⟨0x00000007, []⟩ = .ok .padEnable ∧
  decode ⟨0x00000008, []⟩ = .ok .padDisable ∧
  (∀ d, decode ⟨0x00000010, d⟩ = .ok (.encrypt d)) ∧
  (∀ d, decode ⟨0x00000011, d⟩ = .ok (.decrypt d))

/-- Decoding an encoded command gives it back, with every operand at every value the encoding admits. -/
def Obligations.DecodeOfEncode : Prop :=
  ∀ i : Instr, i.wf = true → decode (encode i) = .ok i

/-- Each command has one encoding: a command that decodes is the encoding of what it decodes to, which is well formed. -/
def Obligations.EncodeOfDecode : Prop :=
  ∀ (c : Command) (i : Instr), decode c = .ok i → i.wf = true ∧ encode i = c

/-- R108: the checks of decode, each failing check an `IllegalCommand` with no other effect, and a word that passes them
selects exactly one row of the opcode map; every command falls under one of the two. -/
def Obligations.DecodeChecks : Prop :=
  ∀ c : Command,
    let bad : Prop :=
      c.word.opc ∉ ([0x01, 0x02, 0x03, 0x04, 0x05, 0x06, 0x07, 0x08, 0x10, 0x11] : List (BitVec 8)) ∨
      c.word.extractLsb' 11 5 ≠ 0 ∨
      (c.word.opc ≠ 0x03 ∧ c.word.extractLsb' 8 3 ≠ 0) ∨
      (c.word.opc ≠ 0x04 ∧ c.word.extractLsb' 16 16 ≠ 0) ∨
      (c.word.opc ∈ ([0x03, 0x04, 0x05, 0x06, 0x07, 0x08] : List (BitVec 8)) ∧ c.payload ≠ [])
    (bad → ∀ (s : State) (rest : List Command), s.pending = c :: rest →
      step s = .next { s with pending := rest, answers := s.answers ++ [⟨.error .illegalCommand, []⟩] }) ∧
    (¬ bad → ∃ i, decode c = .ok i ∧ i.row ∈ opcodeTable ∧ i.row.selects c.word = true ∧
      ∀ r ∈ opcodeTable, r.selects c.word = true → r = i.row)

/-- Every assembler line is one command and assembles to one command word (30_encoding.md section 5). A line of each form
assembles to the encoding of the command it writes, which is well formed and decodes to that command; no other line
assembles to a command; `; text` is a comment. The forms rest on the model's choices of log entry 15 (one space between
mnemonic and operand, digits of either case, leading zeros). -/
def Obligations.AssembledLineIsOneCommand : Prop :=
  (∀ (line : List Char) (i : Instr), LineForm line i →
    assemble line = some (.command (encode i)) ∧ i.wf = true ∧ decode (encode i) = .ok i) ∧
  (∀ (line : List Char) (c : Command), assemble line = some (.command c) → ∃ i, LineForm line i ∧ c = encode i) ∧
  (∀ text : List Char, assemble (';' :: ' ' :: text) = some .comment)

/-! ## The step -/

/-- A step runs the decoded command: with a command pending that decodes to `i`, the step is `exec i` at the state from
which that command has been taken. -/
def Obligations.StepRunsDecodedCommand : Prop :=
  ∀ (s : State) (c : Command) (rest : List Command) (i : Instr),
    s.pending = c :: rest → decode c = .ok i → step s = exec i { s with pending := rest }

/-- With no command issued the engine waits, unchanged. The model's choice: log entry 2. -/
def Obligations.StepWaitsForCommand : Prop :=
  ∀ s : State, s.pending = [] → step s = .next s

/-- R115: every command is answered once, by a status of R301 and an output that is empty but for an ENCRYPT or DECRYPT
that answers OK; no step stops. -/
def Obligations.EveryCommandAnsweredOnce : Prop :=
  ∀ (s : State) (c : Command) (rest : List Command), s.pending = c :: rest →
    ∃ (t : State) (a : Answer), step s = .next t ∧ t.pending = rest ∧ t.answers = s.answers ++ [a] ∧
      a.status.code.toNat ≤ 5 ∧
      (a.out ≠ [] → a.status = .ok ∧ ∃ d data, decode c = .ok (cryptInstr d data))

/-- R104 and R301: the codes of the seven modes, the reserved code 7 refused by SET_MODE, and the codes of the six statuses,
of which no other is answered. -/
def Obligations.ModeAndStatusCodes : Prop :=
  [Mode.ecb, .cbc, .cfb, .cfb8, .ofb, .ctr, .stream].map modeCode = [0, 1, 2, 3, 4, 5, 6] ∧
  (∀ s : State, exec (.setMode 7) s = .next { s with
    answers := s.answers ++ [⟨.error .unsupportedModeError, []⟩] }) ∧
  Status.code .ok = 0x00 ∧ Status.code (.error .configurationError) = 0x01 ∧
  Status.code (.error .lengthError) = 0x02 ∧ Status.code (.error .paddingError) = 0x03 ∧
  Status.code (.error .unsupportedModeError) = 0x04 ∧ Status.code (.error .illegalCommand) = 0x05 ∧
  ∀ st : Status, st.code.toNat ≤ 5

/-- R304: a command that answers any status other than OK changes no register and answers the empty output. -/
def Obligations.ErrorsChangeNothing : Prop :=
  ∀ (s t : State) (c : Command) (rest : List Command) (a : Answer), s.pending = c :: rest → step s = .next t →
    t.answers = s.answers ++ [a] → a.status ≠ .ok →
    a.out = [] ∧ t = { s with pending := rest, answers := s.answers ++ [a] }

/-- R310: re-issuing a failed command in the unchanged state fails again with the same status. -/
def Obligations.FailedCommandFailsAgain : Prop :=
  ∀ (i : Instr) (s t : State) (e : ErrorKind), exec i s = .next t →
    t.answers = s.answers ++ [⟨.error e, []⟩] →
    exec i t = .next { t with answers := t.answers ++ [⟨.error e, []⟩] }

/-! ## Reset and invariants -/

/-- R330: the reset value of every register of 10_state.md. -/
def Obligations.ResetValues : Prop :=
  let B := Config.params.blockSize
  let r := State.reset
  r.mode = .ecb ∧ r.modeValid = false ∧ r.key = [] ∧ r.keySet = false ∧ r.keyLen = 0 ∧ r.keylenLock = false ∧
  r.ivCfg = List.replicate B 0 ∧ r.ivSet = false ∧ r.padEn = true ∧ r.cbEn = false ∧ r.changed = true ∧
  r.backend = .internal ∧ r.ksched = none ∧
  (∀ d, (r.stream d).iv = List.replicate B 0 ∧ (r.stream d).ks = List.replicate B 0 ∧ (r.stream d).pos = 0 ∧
    (r.stream d).sst = none)

/-- The invariant of the registers holds at reset. -/
def Obligations.ResetMeetsInvariant : Prop := Inv Config.params State.reset

/-- The invariant of the registers is kept by every step, from every state that meets it. -/
def Obligations.StepKeepsInvariant : Prop :=
  ∀ s t : State, Inv Config.params s → step s = .next t → Inv Config.params t

/-- R53: whenever `CB_EN = 0` between commands, both streams are at rest: it holds at reset and every command preserves
it. -/
def Obligations.StreamsRestWhenNotContinuous : Prop :=
  RestInv State.reset ∧ ∀ (i : Instr) (s t : State), RestInv s → exec i s = .next t → RestInv t

/-- R331: no command clears `MODE_VALID`, `KEY_SET`, `IV_SET` or `KEYLEN_LOCK`. -/
def Obligations.OnlyResetClearsStickyFlags : Prop :=
  ∀ s t : State, step s = .next t →
    (s.modeValid = true → t.modeValid = true) ∧ (s.keySet = true → t.keySet = true) ∧
    (s.ivSet = true → t.ivSet = true) ∧ (s.keylenLock = true → t.keylenLock = true)

/-- R84: after an ENCRYPT or DECRYPT that answers OK the key schedule and the backend are those of the key and the
configuration it ran with, so none ever uses a stale one. -/
def Obligations.KeyScheduleNeverStale : Prop :=
  ∀ (d : Dir) (data out : ByteString) (s t : State), Inv Config.params s → exec (cryptInstr d data) s = .next t →
    t.answers = s.answers ++ [⟨.ok, out⟩] →
    t.changed = false ∧ t.ksched = some (Config.params.setupKey s.key) ∧
    Config.params.select s.mode s.keyLen s.cbEn t.backend = true

/-! ## Configuration commands -/

/-- R270: SET_KEY, with its frame: it writes `KEY`, `KEY_LEN`, `KEY_SET` and `CHANGED`, or answers LengthError. -/
def Obligations.SetKeyEffect : Prop :=
  ∀ (k : ByteString) (s : State),
    (k.length ∈ Config.params.keyLengths → (s.keylenLock = true → k.length = s.keyLen) →
      exec (.setKey k) s = .next { s with
        key := k, keyLen := k.length, keySet := true, changed := true, answers := s.answers ++ [⟨.ok, []⟩] }) ∧
    ((k.length ∉ Config.params.keyLengths ∨ (s.keylenLock = true ∧ k.length ≠ s.keyLen)) →
      exec (.setKey k) s = .next { s with answers := s.answers ++ [⟨.error .lengthError, []⟩] })

/-- R271, with R13: SET_MODE, with its frame: for a code `m` of a supported mode it writes `MODE`, `MODE_VALID` and
`CHANGED`; the reserved code 7 and a mode outside `SUPPORTED_MODES` answer UnsupportedModeError. With a block primitive
STREAM is outside, and with a stream primitive STREAM is the one mode inside. -/
def Obligations.SetModeEffect : Prop :=
  ∀ s : State,
    (∀ m ∈ Config.params.supportedModes, exec (.setMode (modeCode m)) s = .next { s with
      mode := m, modeValid := true, changed := true, answers := s.answers ++ [⟨.ok, []⟩] }) ∧
    (∀ m, m ∉ Config.params.supportedModes → exec (.setMode (modeCode m)) s = .next { s with
      answers := s.answers ++ [⟨.error .unsupportedModeError, []⟩] }) ∧
    exec (.setMode 7) s = .next { s with answers := s.answers ++ [⟨.error .unsupportedModeError, []⟩] } ∧
    match Config.params.primitive with
    | .block => .stream ∉ Config.params.supportedModes
    | .stream => ∀ m, m ∈ Config.params.supportedModes ↔ m = .stream

/-- R272: SET_KEYLEN, with its frame: it writes `KEY_LEN`, `KEYLEN_LOCK` and `CHANGED`, or answers LengthError. -/
def Obligations.SetKeylenEffect : Prop :=
  ∀ (n : Nat) (s : State),
    (n ∈ Config.params.keyLengths → exec (.setKeylen n) s = .next { s with
      keyLen := n, keylenLock := true, changed := true, answers := s.answers ++ [⟨.ok, []⟩] }) ∧
    (n ∉ Config.params.keyLengths → exec (.setKeylen n) s = .next { s with
      answers := s.answers ++ [⟨.error .lengthError, []⟩] })

/-- R230: SET_IV, with its frame: it writes `IV_CFG` and `IV_SET` and restarts both streams from the new IV, or answers
LengthError. -/
def Obligations.SetIvEffect : Prop :=
  ∀ (v : ByteString) (s : State),
    let restarted : Stream := { iv := v, ks := zeros Config.params.blockSize, pos := 0, sst := none }
    (v.length = Config.params.blockSize → exec (.setIv v) s = .next { s with
      ivCfg := v, ivSet := true, enc := restarted, dec := restarted, answers := s.answers ++ [⟨.ok, []⟩] }) ∧
    (v.length ≠ Config.params.blockSize → exec (.setIv v) s = .next { s with
      answers := s.answers ++ [⟨.error .lengthError, []⟩] })

/-- R231: CB_ENABLE, with its frame: enabled already, it changes nothing; else it sets `CB_EN`, clears the cursors and the
stream states and draws a backend that `Select` admits, whatever the count of the draws. -/
def Obligations.CbEnableEffect : Prop :=
  ∀ s : State,
    (s.cbEn = true → exec .cbEnable s = .next { s with answers := s.answers ++ [⟨.ok, []⟩] }) ∧
    (s.cbEn = false → ∃ b n, Config.params.select s.mode s.keyLen true b = true ∧
      exec .cbEnable s = .next { s with
        cbEn := true
        enc := { s.enc with pos := 0, sst := none }
        dec := { s.dec with pos := 0, sst := none }
        backend := b, draws := n, answers := s.answers ++ [⟨.ok, []⟩] })

/-- R232: CB_DISABLE, with its frame: disabled already, it changes nothing; else it clears `CB_EN`, restarts both streams
from `IV_CFG` and draws a backend that `Select` admits, whatever the count of the draws. -/
def Obligations.CbDisableEffect : Prop :=
  ∀ s : State,
    let restarted : Stream := { iv := s.ivCfg, ks := zeros Config.params.blockSize, pos := 0, sst := none }
    (s.cbEn = false → exec .cbDisable s = .next { s with answers := s.answers ++ [⟨.ok, []⟩] }) ∧
    (s.cbEn = true → ∃ b n, Config.params.select s.mode s.keyLen false b = true ∧
      exec .cbDisable s = .next { s with
        cbEn := false, enc := restarted, dec := restarted
        backend := b, draws := n, answers := s.answers ++ [⟨.ok, []⟩] })

/-- R214 and R215: PAD_ENABLE and PAD_DISABLE write `PAD_EN` only. -/
def Obligations.PadSwitchEffect : Prop :=
  ∀ s : State,
    exec .padEnable s = .next { s with padEn := true, answers := s.answers ++ [⟨.ok, []⟩] } ∧
    exec .padDisable s = .next { s with padEn := false, answers := s.answers ++ [⟨.ok, []⟩] }

/-- R273: whenever SET_KEY, SET_MODE or SET_KEYLEN answers OK it sets `CHANGED`, so the next ENCRYPT or DECRYPT that
answers OK restarts both streams: whatever the streams hold, it goes to the same state with the same answer. -/
def Obligations.ConfigurationRestartsStreams : Prop :=
  ∀ (i : Instr) (s t : State), ((∃ k, i = .setKey k) ∨ (∃ m, i = .setMode m) ∨ (∃ n, i = .setKeylen n)) →
    exec i s = .next t → t.answers = s.answers ++ [⟨.ok, []⟩] →
    t.changed = true ∧
    ∀ (d : Dir) (data out : ByteString) (u : State), exec (cryptInstr d data) t = .next u →
      u.answers = t.answers ++ [⟨.ok, out⟩] →
      ∀ w1 w2 : Stream, exec (cryptInstr d data) { t with enc := w1, dec := w2 } = .next u

/-- R78: the eight commands that are no data commands are idempotent: the same command twice in a row leaves the same
state and gives the same answer as once. -/
def Obligations.ConfigurationIdempotent : Prop :=
  ∀ (i : Instr), (∀ d data, i ≠ cryptInstr d data) → ∀ s t : State, exec i s = .next t →
    ∃ a, t.answers = s.answers ++ [a] ∧ exec i t = .next { t with answers := t.answers ++ [a] }

/-- R334: the order of SET_MODE, SET_KEY and SET_IV, each answered OK, does not affect the state they leave. -/
def Obligations.SetupOrderIrrelevant : Prop :=
  ∀ (m : BitVec 3) (k v : ByteString) (i j : Instr),
    i ∈ [Instr.setMode m, .setKey k, .setIv v] → j ∈ [Instr.setMode m, .setKey k, .setIv v] →
    ∀ s t u : State, exec i s = .next t → t.answers = s.answers ++ [⟨.ok, []⟩] →
      exec j t = .next u → u.answers = t.answers ++ [⟨.ok, []⟩] →
      ∃ t', exec j s = .next t' ∧ t'.answers = s.answers ++ [⟨.ok, []⟩] ∧ exec i t' = .next u

/-! ## Which errors arise, and where -/

/-- R302: ConfigurationError is raised by ENCRYPT and DECRYPT only, exactly when no mode is selected, there is no key of
length `KEY_LEN`, or the mode consumes an IV and none is set; it comes before any check of the data. -/
def Obligations.ConfigurationErrorExactly : Prop :=
  ∀ (i : Instr) (s : State),
    exec i s = .next { s with answers := s.answers ++ [⟨.error .configurationError, []⟩] } ↔
      (∃ d data, i = cryptInstr d data) ∧
        (s.modeValid = false ∨ (s.keySet = false ∨ s.key.length ≠ s.keyLen) ∨
          (s.mode ∈ [Mode.cbc, .cfb, .cfb8, .ofb, .ctr] ∧ s.ivSet = false))

/-- R303: LengthError is raised by SET_KEY, SET_KEYLEN and SET_IV for a length outside the contract, and by ENCRYPT and
DECRYPT in ECB and CBC for data that is no multiple of `B` where the block loop needs it, the configuration checks having
passed. -/
def Obligations.LengthErrorExactly : Prop :=
  ∀ (i : Instr) (s : State),
    exec i s = .next { s with answers := s.answers ++ [⟨.error .lengthError, []⟩] } ↔
      (∃ k, i = .setKey k ∧ (k.length ∉ Config.params.keyLengths ∨ (s.keylenLock = true ∧ k.length ≠ s.keyLen))) ∨
      (∃ n, i = .setKeylen n ∧ n ∉ Config.params.keyLengths) ∨
      (∃ v, i = .setIv v ∧ v.length ≠ Config.params.blockSize) ∨
      (∃ d data, i = cryptInstr d data ∧ Ready s ∧ ¬ LengthOk Config.params d data s)

/-- R306: UnsupportedModeError is raised only by SET_MODE, for the reserved code 7 or a code not in `SUPPORTED_MODES`. -/
def Obligations.UnsupportedModeErrorExactly : Prop :=
  ∀ (i : Instr) (s : State),
    exec i s = .next { s with answers := s.answers ++ [⟨.error .unsupportedModeError, []⟩] } ↔
      i = .setMode 7 ∨ ∃ m, m ∉ Config.params.supportedModes ∧ i = .setMode (modeCode m)

/-- R305: PaddingError is raised only by DECRYPT in ECB or CBC with `PAD_EN = 1`, by `Unpad`: when the decrypted string is
empty, or its last byte is 0 or greater than `B`. The decrypted string is what the same command answers with `PAD_EN = 0`. -/
def Obligations.PaddingErrorExactly : Prop :=
  ∀ (i : Instr) (s : State),
    exec i s = .next { s with answers := s.answers ++ [⟨.error .paddingError, []⟩] } ↔
      ∃ data, i = .decrypt data ∧ (s.mode = .ecb ∨ s.mode = .cbc) ∧ s.padEn = true ∧
        ∃ t y, exec (.decrypt data) { s with padEn := false } = .next t ∧ t.answers = s.answers ++ [⟨.ok, y⟩] ∧
          (y.getLast? = none ∨ ∃ n, y.getLast? = some n ∧ (n = 0 ∨ n.toNat > Config.params.blockSize))

/-- R307: IllegalCommand is raised only by decode: a step answers it exactly for a pending command with an unassigned
opcode, a non-zero `RSV`, a non-zero `MODEF` on an opcode other than SET_MODE, a non-zero `IMM16` on one other than
SET_KEYLEN, or a payload on a command that takes none. -/
def Obligations.IllegalCommandOnlyByDecode : Prop :=
  ∀ (s t : State) (c : Command) (rest : List Command), s.pending = c :: rest → step s = .next t →
    (t.answers = s.answers ++ [⟨.error .illegalCommand, []⟩] ↔
      c.word.opc ∉ ([0x01, 0x02, 0x03, 0x04, 0x05, 0x06, 0x07, 0x08, 0x10, 0x11] : List (BitVec 8)) ∨
      c.word.extractLsb' 11 5 ≠ 0 ∨
      (c.word.opc ≠ 0x03 ∧ c.word.extractLsb' 8 3 ≠ 0) ∨
      (c.word.opc ≠ 0x04 ∧ c.word.extractLsb' 16 16 ≠ 0) ∨
      (c.word.opc ∈ ([0x03, 0x04, 0x05, 0x06, 0x07, 0x08] : List (BitVec 8)) ∧ c.payload ≠ []))

/-! ## ENCRYPT and DECRYPT: setup, write-back and frame -/

/-- R138: with `CHANGED = 1` a data command that answers OK has run the setup: the key schedule is that of `KEY`, the
backend is one `Select` admits, the other direction's stream is `Fresh()` and `CHANGED` is 0. With `CHANGED = 0` none of
them is written. That the model's own count of the draws is then as before is log entry 8's choice, and that `BACKEND` is,
with no downgrade inside an operation, rests on log entry 9. -/
def Obligations.LazySetupEffect : Prop :=
  ∀ (d : Dir) (data out : ByteString) (s t : State), exec (cryptInstr d data) s = .next t →
    t.answers = s.answers ++ [⟨.ok, out⟩] →
    t.changed = false ∧
    (s.changed = true →
      t.ksched = some (Config.params.setupKey s.key) ∧
      Config.params.select s.mode s.keyLen s.cbEn t.backend = true ∧
      (∀ d', d' ≠ d → t.stream d' = fresh Config.params s) ∧
      (s.cbEn = false → t.stream d = fresh Config.params s)) ∧
    (s.changed = false →
      t.ksched = s.ksched ∧ t.backend = s.backend ∧ t.draws = s.draws ∧ ∀ d', d' ≠ d → t.stream d' = s.stream d')

/-- R140 and the frame of R130 and R131: a data command writes no register but `CHANGED`, `KSCHED`, `BACKEND` and the
streams, and with `CB_EN = 0` and no setup due it leaves both streams as they were. -/
def Obligations.CryptFrame : Prop :=
  ∀ (d : Dir) (data : ByteString) (s t : State), exec (cryptInstr d data) s = .next t →
    t = { s with
      changed := t.changed, ksched := t.ksched, backend := t.backend, draws := t.draws, enc := t.enc, dec := t.dec
      answers := t.answers } ∧
    (s.cbEn = false → s.changed = false → t.enc = s.enc ∧ t.dec = s.dec)

/-- ENCRYPT answers OK, in every mode, whenever the configuration checks and the length check pass, and so does DECRYPT
but where it unpads. -/
def Obligations.CryptCompletesWhenReady : Prop :=
  ∀ (d : Dir) (data : ByteString) (s : State), Ready s → LengthOk Config.params d data s →
    (d = .dec → (s.mode = .ecb ∨ s.mode = .cbc) → s.padEn = false) →
    ∃ t out, exec (cryptInstr d data) s = .next t ∧ t.answers = s.answers ++ [⟨.ok, out⟩]

/-- DECRYPT of what pads correctly answers OK: in ECB and CBC with `PAD_EN = 1`, exactly when the same command with
`PAD_EN = 0` gives a string that `Unpad` accepts, and the answer is then the unpadded string. -/
def Obligations.PaddedDecryptUnpads : Prop :=
  ∀ (data y out : ByteString) (s t : State), (s.mode = .ecb ∨ s.mode = .cbc) → s.padEn = true →
    exec (.decrypt data) { s with padEn := false } = .next t → t.answers = s.answers ++ [⟨.ok, y⟩] →
    (unpad Config.params y = .ok out ↔
      exec (.decrypt data) s = .next { t with padEn := true, answers := s.answers ++ [⟨.ok, out⟩] })

/-! ## The block modes -/

/-- R160: ECB encrypt: the padded data, block by block, each under `E` on its own; the streams are not written but by the
setup, after which both are `Fresh()`. -/
def Obligations.EcbEncryptsBlocks : Prop :=
  ∀ (data : ByteString) (s : State), Ready s → s.mode = .ecb → LengthOk Config.params .enc data s →
    let B := Config.params.blockSize
    let p := if s.padEn = true then pad Config.params data else data
    ∃ t out, exec (.encrypt data) s = .next t ∧ t.answers = s.answers ++ [⟨.ok, out⟩] ∧
      out.length = p.length ∧
      (∀ j, j * B < p.length → blockAt B out j = Config.params.encryptBlock s.key (blockAt B p j)) ∧
      (s.changed = false → t.enc = s.enc ∧ t.dec = s.dec) ∧
      (s.changed = true → t.enc = fresh Config.params s ∧ t.dec = fresh Config.params s)

/-- R161: ECB decrypt: each block under `D` on its own, then `Unpad` when `PAD_EN = 1`; the streams are not written but by
the setup, after which both are `Fresh()`. -/
def Obligations.EcbDecryptsBlocks : Prop :=
  ∀ (data : ByteString) (s : State), Ready s → s.mode = .ecb → data.length % Config.params.blockSize = 0 →
    let B := Config.params.blockSize
    ∃ y : ByteString, y.length = data.length ∧
      (∀ j, j * B < data.length → blockAt B y j = Config.params.decryptBlock s.key (blockAt B data j)) ∧
      (∀ out, (if s.padEn = true then unpad Config.params y else .ok y) = .ok out →
        ∃ t, exec (.decrypt data) s = .next t ∧ t.answers = s.answers ++ [⟨.ok, out⟩] ∧
          (s.changed = false → t.enc = s.enc ∧ t.dec = s.dec) ∧
          (s.changed = true → t.enc = fresh Config.params s ∧ t.dec = fresh Config.params s)) ∧
      (∀ e, (if s.padEn = true then unpad Config.params y else .ok y) = .error e →
        exec (.decrypt data) s = .next { s with answers := s.answers ++ [⟨.error .paddingError, []⟩] })

/-- R162: CBC encrypt: `C_j = E(P_j XOR C_{j-1})` with the chaining IV before the first block, so block `j` of the output
is `E` of block `j` of the data XOR block `j` of the string `IV ++ output`; with `CB_EN = 1` the last block of that string
is the next chaining value. -/
def Obligations.CbcEncryptChains : Prop :=
  ∀ (data : ByteString) (s : State), Ready s → s.mode = .cbc → LengthOk Config.params .enc data s →
    (startStream Config.params .enc s).iv.length = Config.params.blockSize →
    let B := Config.params.blockSize
    let w := startStream Config.params .enc s
    let p := if s.padEn = true then pad Config.params data else data
    ∃ t out, exec (.encrypt data) s = .next t ∧ t.answers = s.answers ++ [⟨.ok, out⟩] ∧
      out.length = p.length ∧
      (∀ j, j * B < p.length →
        blockAt B out j = Config.params.encryptBlock s.key (xorBytes (blockAt B p j) (blockAt B (w.iv ++ out) j))) ∧
      (s.cbEn = true → t.enc = { w with iv := (w.iv ++ out).drop out.length })

/-- R163: CBC decrypt: `P_j = D(C_j) XOR C_{j-1}`, the chaining value taken from the ciphertext; then `Unpad` when
`PAD_EN = 1`; with `CB_EN = 1` the last ciphertext block is the next chaining value. -/
def Obligations.CbcDecryptChains : Prop :=
  ∀ (data : ByteString) (s : State), Ready s → s.mode = .cbc → data.length % Config.params.blockSize = 0 →
    (startStream Config.params .dec s).iv.length = Config.params.blockSize →
    let B := Config.params.blockSize
    let w := startStream Config.params .dec s
    ∃ y : ByteString, y.length = data.length ∧
      (∀ j, j * B < data.length →
        blockAt B y j = xorBytes (Config.params.decryptBlock s.key (blockAt B data j)) (blockAt B (w.iv ++ data) j)) ∧
      (∀ out, (if s.padEn = true then unpad Config.params y else .ok y) = .ok out →
        ∃ t, exec (.decrypt data) s = .next t ∧ t.answers = s.answers ++ [⟨.ok, out⟩] ∧
          (s.cbEn = true → t.dec = { w with iv := (w.iv ++ data).drop data.length })) ∧
      (∀ e, (if s.padEn = true then unpad Config.params y else .ok y) = .error e →
        exec (.decrypt data) s = .next { s with answers := s.answers ++ [⟨.error .paddingError, []⟩] })

/-- R165: an ECB answer does not depend on `IV_CFG`, `IV_SET`, `CB_EN` or the streams, and an ECB command changes no stream
but by the setup, which an OK command runs when `CHANGED = 1`. -/
def Obligations.EcbIgnoresIv : Prop :=
  ∀ (d : Dir) (data : ByteString) (s t : State), s.mode = .ecb → SameButIv s t →
    ∃ s' t' a, exec (cryptInstr d data) s = .next s' ∧ exec (cryptInstr d data) t = .next t' ∧
      s'.answers = s.answers ++ [a] ∧ t'.answers = t.answers ++ [a] ∧
      (s.changed = false ∨ a.status ≠ .ok → s'.enc = s.enc ∧ s'.dec = s.dec) ∧
      (s.changed = true ∧ a.status = .ok → s'.enc = fresh Config.params s ∧ s'.dec = fresh Config.params s)

/-! ## The feedback and stream modes -/

/-- R181 and R182: CFB in both directions, from any start, mid-block too. Let `z` be the register, then the part of it
that the block under way has fed back, then the ciphertext. Keystream block `n`, counted from the block under way, is `E` of
block `n` of `z`, but for a block that was under way already, which is `KS`. With `CB_EN = 1` the register ends with the
ciphertext bytes of the block under way in place over the block before. The premise is the part of `Inv` about the stream. -/
def Obligations.CfbFeedsBackCiphertext : Prop :=
  ∀ (d : Dir) (data : ByteString) (s : State), Ready s → s.mode = .cfb →
    StreamShape Config.params (startStream Config.params d s) →
    let B := Config.params.blockSize
    let w := startStream Config.params d s
    let m := w.pos + data.length
    ∃ t out, exec (cryptInstr d data) s = .next t ∧ t.answers = s.answers ++ [⟨.ok, out⟩] ∧
      let fedBack := w.iv.take w.pos ++ (if d = .enc then out else data)
      let z := w.iv ++ fedBack
      let ks := fun n => if n = 0 ∧ w.pos ≠ 0 then w.ks else Config.params.encryptBlock s.key (blockAt B z n)
      out = data.mapIdx (fun i x => x ^^^ (ks ((w.pos + i) / B)).getD ((w.pos + i) % B) 0) ∧
      (s.cbEn = true → t.stream d = { w with
        iv := fedBack.drop (m / B * B) ++ (blockAt B z (m / B)).drop (m % B)
        ks := if data = [] then w.ks else ks ((m - 1) / B)
        pos := m % B })

/-- R183 and R184: CFB8 in both directions. The keystream of byte `i` is the leading byte of `E` of the `B` bytes that
begin at index `i` of the string `IV ++ ciphertext`, and with `CB_EN = 1` the window ends with the last `B` bytes of it. -/
def Obligations.Cfb8SlidesWindow : Prop :=
  ∀ (d : Dir) (data : ByteString) (s : State), Ready s → s.mode = .cfb8 →
    (startStream Config.params d s).iv.length = Config.params.blockSize →
    let B := Config.params.blockSize
    let w := startStream Config.params d s
    ∃ t out, exec (cryptInstr d data) s = .next t ∧ t.answers = s.answers ++ [⟨.ok, out⟩] ∧
      let cipher := if d = .enc then out else data
      out = data.mapIdx (fun i x => x ^^^ (Config.params.encryptBlock s.key (((w.iv ++ cipher).drop i).take B)).headD 0) ∧
      (s.cbEn = true → t.stream d = { w with iv := (w.iv ++ cipher).drop data.length })

/-- R185 and R186: OFB in both directions, from any start, mid-block too. Keystream block `n`, counted from the block
under way, is `E` applied `n + 1` times to the register, or `n` times after a block that was under way already, which is
`KS`; with `CB_EN = 1` the register ends with the last keystream block generated. The premise is the part of `Inv` about the
stream. -/
def Obligations.OfbIteratesCipher : Prop :=
  ∀ (d : Dir) (data : ByteString) (s : State), Ready s → s.mode = .ofb →
    StreamShape Config.params (startStream Config.params d s) →
    let B := Config.params.blockSize
    let w := startStream Config.params d s
    let m := w.pos + data.length
    let underWay := if w.pos = 0 then 0 else 1
    let ks := fun n => if n < underWay then w.ks else (Config.params.encryptBlock s.key)^[n - underWay + 1] w.iv
    ∃ t, exec (cryptInstr d data) s = .next t ∧
      t.answers = s.answers ++ [⟨.ok, data.mapIdx (fun i x => x ^^^ (ks ((w.pos + i) / B)).getD ((w.pos + i) % B) 0)⟩] ∧
      (s.cbEn = true → t.stream d = { w with
        iv := (Config.params.encryptBlock s.key)^[(m + B - 1) / B - underWay] w.iv
        ks := if data = [] then w.ks else ks ((m - 1) / B)
        pos := m % B })

/-- R187 and R188: CTR in both directions, from any start, mid-block too. Keystream block `n`, counted from the block under
way, is `E` of the register's counter plus `n`, or plus `n - 1` after a block that was under way already, which is `KS`; the
counter is big-endian over the whole block and wraps, and with `CB_EN = 1` the register ends with the counter of the next
block. The premise is the part of `Inv` about the stream. -/
def Obligations.CtrCountsBlocks : Prop :=
  ∀ (d : Dir) (data : ByteString) (s : State), Ready s → s.mode = .ctr →
    StreamShape Config.params (startStream Config.params d s) →
    let B := Config.params.blockSize
    let w := startStream Config.params d s
    let m := w.pos + data.length
    let underWay := if w.pos = 0 then 0 else 1
    let counter := fun n => beBytes B (beVal w.iv + n)
    let ks := fun n => if n < underWay then w.ks else Config.params.encryptBlock s.key (counter (n - underWay))
    ∃ t, exec (cryptInstr d data) s = .next t ∧
      t.answers = s.answers ++ [⟨.ok, data.mapIdx (fun i x => x ^^^ (ks ((w.pos + i) / B)).getD ((w.pos + i) % B) 0)⟩] ∧
      (s.cbEn = true → t.stream d = { w with
        iv := counter ((m + B - 1) / B - underWay)
        ks := if data = [] then w.ks else ks ((m - 1) / B)
        pos := m % B })

/-- R189: `Inc` adds one to the big-endian value of a block, modulo `2^(8B)`, and gives a block. -/
def Obligations.CounterIncrementWraps : Prop :=
  ∀ v : ByteString, v.length = Config.params.blockSize →
    (inc Config.params v).length = Config.params.blockSize ∧
    beVal (inc Config.params v) = (beVal v + 1) % 2 ^ (8 * Config.params.blockSize)

/-- R190 and R191: STREAM in both directions: the data goes through `StreamXform` from `SST`, or from
`StreamInit(KEY, IV_CFG)` when there is none, and keeps its length; with `CB_EN = 1` the next stream state is kept. -/
def Obligations.StreamModePassesThrough : Prop :=
  ∀ (d : Dir) (data : ByteString) (s : State), Ready s → s.mode = .stream →
    let w := startStream Config.params d s
    let x := Config.params.streamXform d (w.sst.getD (Config.params.streamInit s.key s.ivCfg)) data
    ∃ t, exec (cryptInstr d data) s = .next t ∧ t.answers = s.answers ++ [⟨.ok, x.1⟩] ∧
      x.1.length = data.length ∧
      (s.cbEn = true → t.stream d = { w with sst := some x.2 })

/-- R194: CFB, CFB8, OFB and CTR give one output byte per input byte, and output byte `i` depends only on the input bytes
up to `i` and the starting state: data with a common beginning has outputs with a common beginning. -/
def Obligations.OutputDependsOnPrefix : Prop :=
  ∀ (d : Dir) (common rest1 rest2 : ByteString) (s : State), Ready s →
    s.mode ∈ [Mode.cfb, .cfb8, .ofb, .ctr] →
    ∃ t1 t2 o1 o2, exec (cryptInstr d (common ++ rest1)) s = .next t1 ∧
      exec (cryptInstr d (common ++ rest2)) s = .next t2 ∧
      t1.answers = s.answers ++ [⟨.ok, o1⟩] ∧ t2.answers = s.answers ++ [⟨.ok, o2⟩] ∧
      o1.length = (common ++ rest1).length ∧ o2.length = (common ++ rest2).length ∧
      o1.take common.length = o2.take common.length

/-- R192: `PAD_EN` is neither read nor written in CFB, CFB8, OFB, CTR and STREAM. -/
def Obligations.FeedbackModesIgnorePadding : Prop :=
  ∀ (d : Dir) (data : ByteString) (s : State) (b : Bool), s.mode ∈ [Mode.cfb, .cfb8, .ofb, .ctr, .stream] →
    ∃ t, exec (cryptInstr d data) s = .next t ∧ t.padEn = s.padEn ∧
      exec (cryptInstr d data) { s with padEn := b } = .next { t with padEn := b }

/-- R254: which primitive function a mode calls, each call of `E` and `D` with a block of `B` bytes and the key `KEY`. Two
sets of parameters with the same block size that agree on `E(KEY, b)` for every block `b` give the same result of CFB, CFB8,
OFB and CTR in both directions and of ECB and CBC encryption, whatever their other functions; ECB and CBC decryption needs
only that they agree on `D(KEY, b)`, and STREAM only the same `StreamInit` and `StreamXform`. -/
def Obligations.ModesCallTheirPrimitive : Prop :=
  ∀ (P Q : Params) (s : State) (data : ByteString) (w : Stream), P.blockSize = Q.blockSize → StreamShape P w →
    ((∀ b : ByteString, b.length = P.blockSize → P.encryptBlock s.key b = Q.encryptBlock s.key b) →
      (∀ d, s.mode ∈ [Mode.cfb, .cfb8, .ofb, .ctr] → modeFn P s d data w = modeFn Q s d data w) ∧
      (s.mode ∈ [Mode.ecb, .cbc] → modeFn P s .enc data w = modeFn Q s .enc data w)) ∧
    ((∀ b : ByteString, b.length = P.blockSize → P.decryptBlock s.key b = Q.decryptBlock s.key b) →
      s.mode ∈ [Mode.ecb, .cbc] → modeFn P s .dec data w = modeFn Q s .dec data w) ∧
    (P.streamInit = Q.streamInit → P.streamXform = Q.streamXform → s.mode = .stream →
      ∀ d, modeFn P s d data w = modeFn Q s d data w)

/-! ## Padding -/

/-- R211: `Pad` appends `n` copies of the byte `n`, with `n = B - len mod B` in `1..B`, to a multiple of `B`; the byte's
value is `n` itself. -/
def Obligations.PadAppendsCount : Prop :=
  ∀ x : ByteString,
    ∃ n b, n = Config.params.blockSize - x.length % Config.params.blockSize ∧ 1 ≤ n ∧ n ≤ Config.params.blockSize ∧
      BitVec.toNat b = n ∧ pad Config.params x = x ++ List.replicate n b ∧
      (pad Config.params x).length % Config.params.blockSize = 0

/-- R212 and R213: `Unpad` fails on the empty string and when the last byte is 0 or above `B`, and else removes as many
bytes as the last byte says, whatever the bytes before it are. -/
def Obligations.UnpadReadsLastByteOnly : Prop :=
  unpad Config.params [] = .error .paddingError ∧
  (∀ (y : ByteString) (b : Byte), (b = 0 ∨ b.toNat > Config.params.blockSize) →
    unpad Config.params (y ++ [b]) = .error .paddingError) ∧
  (∀ (x z : ByteString) (b : Byte), b ≠ 0 → b.toNat ≤ Config.params.blockSize → z.length + 1 = b.toNat →
    unpad Config.params (x ++ z ++ [b]) = .ok x)

/-- R216: `Unpad(Pad(x)) = x` for every byte string. -/
def Obligations.UnpadOfPad : Prop :=
  ∀ x : ByteString, unpad Config.params (pad Config.params x) = .ok x

/-! ## The laws of the data commands -/

/-- R142: the continuous-buffer concatenation law. With `CB_EN = 1` and no setup due, two data commands of one direction
answer the two parts of what one command on the joined data answers, and leave the same stream: at every split in CFB,
CFB8, OFB and CTR; with `PAD_EN = 0` and both parts multiples of `B` in ECB and CBC; in STREAM when `StreamXform` itself
satisfies it. -/
def Obligations.ConcatenationLaw : Prop :=
  ∀ (d : Dir) (a b : ByteString) (s : State), Ready s → s.cbEn = true → s.changed = false →
    (s.mode ∈ [Mode.cfb, .cfb8, .ofb, .ctr] ∨
      (s.mode ∈ [Mode.ecb, .cbc] ∧ s.padEn = false ∧ a.length % Config.params.blockSize = 0 ∧
        b.length % Config.params.blockSize = 0) ∨
      (s.mode = .stream ∧
        let x := Config.params.streamXform d ((s.stream d).sst.getD (Config.params.streamInit s.key s.ivCfg))
        let y := Config.params.streamXform d (x a).2 b
        x (a ++ b) = ((x a).1 ++ y.1, y.2))) →
    ∃ s1 s2 s3 o1 o2,
      exec (cryptInstr d a) s = .next s1 ∧ s1.answers = s.answers ++ [⟨.ok, o1⟩] ∧
      exec (cryptInstr d b) s1 = .next s2 ∧ s2.answers = s1.answers ++ [⟨.ok, o2⟩] ∧
      exec (cryptInstr d (a ++ b)) s = .next s3 ∧ s3.answers = s.answers ++ [⟨.ok, o1 ++ o2⟩] ∧
      s3.stream d = s2.stream d

/-- R147: the round trip. Where both directions start alike, as they do with `CB_EN = 0` or with a setup due, DECRYPT of the
output of ENCRYPT answers the plaintext, in every mode: for every plaintext with `PAD_EN = 1` or outside ECB and CBC, and for
every multiple of `B` otherwise. -/
def Obligations.DecryptUndoesEncrypt : Prop :=
  ∀ (plain : ByteString) (s : State), Ready s → s.key.length ∈ Config.params.keyLengths →
    startStream Config.params .dec s = startStream Config.params .enc s →
    (startStream Config.params .enc s).iv.length = Config.params.blockSize → LengthOk Config.params .enc plain s →
    ∃ t u cipher, exec (.encrypt plain) s = .next t ∧ t.answers = s.answers ++ [⟨.ok, cipher⟩] ∧
      exec (.decrypt cipher) t = .next u ∧ u.answers = t.answers ++ [⟨.ok, plain⟩]

/-- R143: with `CB_EN = 0` the answer to a data command depends only on the data, `MODE`, `KEY`, `IV_CFG` and `PAD_EN`,
never on what came before. -/
def Obligations.AnswersIndependentWhenNotContinuous : Prop :=
  ∀ (d : Dir) (data : ByteString) (s t : State), Ready s → Ready t → s.cbEn = false → t.cbEn = false →
    s.mode = t.mode → s.key = t.key → s.ivCfg = t.ivCfg → s.padEn = t.padEn →
    ∃ s' t' a, exec (cryptInstr d data) s = .next s' ∧ exec (cryptInstr d data) t = .next t' ∧
      s'.answers = s.answers ++ [a] ∧ t'.answers = t.answers ++ [a]

/-- R144: a data command of one direction neither reads nor writes the other direction's stream, but for the resets of the
setup. -/
def Obligations.DirectionsIndependent : Prop :=
  ∀ (d d' : Dir) (data : ByteString) (w : Stream) (s : State), d' ≠ d →
    ∃ t, exec (cryptInstr d data) s = .next t ∧
      (s.changed = false → t.stream d' = s.stream d' ∧
        exec (cryptInstr d data) (s.setStream d' w) = .next (t.setStream d' w)) ∧
      (s.changed = true → ∀ a, t.answers = s.answers ++ [a] →
        ∃ t', exec (cryptInstr d data) (s.setStream d' w) = .next t' ∧ t'.answers = s.answers ++ [a])

/-- R145: data of length zero: OK with the empty output and the streams as they were, but for the setup's resets, in every
mode except ECB and CBC with `PAD_EN = 1`, where ENCRYPT answers one pad block under `E` (in CBC XORed with the chaining
IV) and DECRYPT a PaddingError, and STREAM, whose answer is `StreamXform`'s and whose stream state is initialised. -/
def Obligations.ZeroLengthData : Prop :=
  ∀ (d : Dir) (s : State), Ready s →
    let P := Config.params
    let w := startStream P d s
    let padBlock : ByteString := List.replicate P.blockSize (BitVec.ofNat 8 P.blockSize)
    ((s.mode ∈ [Mode.ecb, .cbc] → s.padEn = false) → s.mode ≠ .stream →
      ∃ t, exec (cryptInstr d []) s = .next t ∧ t.answers = s.answers ++ [⟨.ok, []⟩] ∧
        (s.changed = false → t.enc = s.enc ∧ t.dec = s.dec) ∧
        (s.changed = true → t.enc = fresh P s ∧ t.dec = fresh P s)) ∧
    (s.padEn = true → s.mode = .ecb → d = .enc →
      ∃ t, exec (cryptInstr d []) s = .next t ∧ t.answers = s.answers ++ [⟨.ok, P.encryptBlock s.key padBlock⟩]) ∧
    (s.padEn = true → s.mode = .cbc → d = .enc →
      ∃ t, exec (cryptInstr d []) s = .next t ∧
        t.answers = s.answers ++ [⟨.ok, P.encryptBlock s.key (xorBytes padBlock w.iv)⟩] ∧
        (s.cbEn = true → t.enc.iv = P.encryptBlock s.key (xorBytes padBlock w.iv))) ∧
    (s.padEn = true → s.mode ∈ [Mode.ecb, .cbc] → d = .dec →
      exec (cryptInstr d []) s = .next { s with answers := s.answers ++ [⟨.error .paddingError, []⟩] }) ∧
    (s.mode = .stream →
      ∃ t, exec (cryptInstr d []) s = .next t ∧ t.answers = s.answers ++
          [⟨.ok, (P.streamXform d (w.sst.getD (P.streamInit s.key s.ivCfg)) []).1⟩] ∧
        (s.cbEn = true → (t.stream d).sst = some (P.streamXform d (w.sst.getD (P.streamInit s.key s.ivCfg)) []).2))

/-- R251: engine transparency. No rule that computes a status, an output or a register other than `BACKEND` reads
`BACKEND`: from two states that agree but for it (and the model's count of the draws, log entry 8), a step goes to two states that
agree but for it, answers included. -/
def Obligations.EngineTransparency : Prop :=
  ∀ s t : State, SameButBackend s t →
    ∃ s' t', step s = .next s' ∧ step t = .next t' ∧ SameButBackend s' t'

/-- `BACKEND` is written by the lazy setup, CB_ENABLE and CB_DISABLE and by nothing else, each time with a backend that
`Select` admits for the configuration at that point (45_backend.md R250). That no operation downgrades `BACKEND` after its
selection, which R252 leaves room for, is the model's reading, log entry 9. -/
def Obligations.BackendWrittenAtSelectionPoints : Prop :=
  ∀ (i : Instr) (s t : State), exec i s = .next t →
    t.backend = s.backend ∨
    (Config.params.select t.mode t.keyLen t.cbEn t.backend = true ∧
      ((i = .cbEnable ∧ s.cbEn = false) ∨ (i = .cbDisable ∧ s.cbEn = true) ∨
        ((∃ d data, i = cryptInstr d data) ∧ s.changed = true)))
end

