-- ==== Sys2Proof/Laws/Assembler.lean ====
section
/-! SUPPORT. What each parser of the assembler accepts, said once in the terms of the line forms. -/

namespace Sys2Proof.Machine

open Sys2Proof.Safety

/-- Every character is the one of its number. -/
theorem eq_ofNat_toNat (c : Char) : ∃ n, n = c.toNat ∧ c = Char.ofNat n := ⟨_, rfl, (Char.ofNat_toNat c).symm⟩

/-- A hexadecimal digit's value is read right, and nothing else is a hexadecimal digit. -/
theorem isHexDigit_iff (c : Char) (v : Nat) : IsHexDigit c v ↔ hexDigit c = some v := by
  constructor
  · intro h
    have hv : v < 16 := by rcases h with h | h <;> exact (List.getElem?_eq_some_iff.1 h).1
    rcases h with h | h <;> interval_cases v <;> simp at h <;> subst h <;> decide
  · obtain ⟨n, hn, rfl⟩ := eq_ofNat_toNat c
    simp only [hexDigit, decDigit, ← hn]
    intro h
    split_ifs at h with h1 h2 h3 <;> cases h
    · obtain ⟨_, _⟩ := h1; interval_cases n <;> simp only [IsHexDigit] <;> decide
    · obtain ⟨_, _⟩ := h2; interval_cases n <;> simp only [IsHexDigit] <;> decide
    · obtain ⟨_, _⟩ := h3; interval_cases n <;> simp only [IsHexDigit] <;> decide

/-- All that `hexBytes` accepts, and what it then gives. -/
theorem hexBytes_iff (text : List Char) (p : ByteString) : hexBytes text = some p ↔ HexText text p := by
  constructor
  · intro h
    induction text using hexBytes.induct generalizing p with
    | case1 => cases h; exact .nil
    | case2 => cases h
    | case3 h' l rest a b bs ih1 ih2 ih3 ih =>
      simp only [hexBytes, ih1, ih2, ih3] at h
      cases h
      exact .cons ((isHexDigit_iff _ _).2 ih3) ((isHexDigit_iff _ _).2 ih2) (ih _ ih1)
    | case4 h' l rest none _ => simp [hexBytes] at h
  · intro h
    induction h with
    | nil => rfl
    | cons h1 h2 _ ih => simp only [hexBytes, (isHexDigit_iff _ _).1 h1, (isHexDigit_iff _ _).1 h2, ih]

/-- All that `parseHex` accepts, and what it then gives. -/
theorem parseHex_iff (text : List Char) (p : ByteString) : parseHex text = some p ↔ HexOperand text p := by
  have hx : ∀ {t q}, HexText ('0' :: 'x' :: t) q → False := fun h => by
    cases h with | cons _ h _ => rw [isHexDigit_iff] at h; simp [hexDigit, decDigit] at h
  have hq : ∀ {q}, HexText emptyPayload q → False := fun h => by
    cases h with | cons h _ _ => rw [isHexDigit_iff] at h; revert h; simp [hexDigit, decDigit]
  have hd : ∀ t q, HexText t q → dropHexPrefix t = t := fun t q h => by
    unfold dropHexPrefix
    split
    · exact (hx h).elim
    · rfl
  have hp : ∀ t q, hexBytes t = some q → (t = [] ↔ q = []) := fun t q h => by
    rw [hexBytes_iff] at h; cases h <;> simp
  unfold parseHex HexOperand
  constructor
  · intro h
    split_ifs at h with h1 h2
    · cases h; exact .inl ⟨rfl, h1⟩
    · refine .inr ⟨fun he => h2 ((hp _ _ h).2 he), ?_⟩
      rw [hexBytes_iff] at h
      unfold dropHexPrefix at h
      split at h
      · exact .inr ⟨_, rfl, h⟩
      · exact .inl h
  · rintro (⟨rfl, h⟩ | ⟨hne, h | ⟨digits, rfl, h⟩⟩)
    · exact if_pos h
    · have ht : text ≠ emptyPayload := by rintro rfl; exact hq h
      rw [if_neg ht, hd _ _ h, if_neg (fun ht => hne ((hp _ _ ((hexBytes_iff _ _).2 h)).1 ht)), hexBytes_iff]
      exact h
    · rw [if_neg (by intro h; cases h), show dropHexPrefix ('0' :: 'x' :: digits) = digits from rfl,
        if_neg (fun ht => hne ((hp _ _ ((hexBytes_iff _ _).2 h)).1 ht)), hexBytes_iff]
      exact h

/-- All that `decDigit` accepts, and what it then gives. -/
theorem decDigit_iff (c : Char) (d : Nat) : decDigit c = some d ↔ d < 10 ∧ c = Nat.digitChar d := by
  constructor
  · obtain ⟨n, hn, rfl⟩ := eq_ofNat_toNat c
    simp only [decDigit, ← hn]
    intro h
    split_ifs at h with h1
    cases h; obtain ⟨_, _⟩ := h1; interval_cases n <;> decide
  · rintro ⟨h, rfl⟩
    interval_cases d <;> decide

/-- All that `parseDigits` accepts, and what it then gives. -/
theorem parseDigits_iff (text : List Char) (v n : Nat) : parseDigits text v = some n ↔
    ∃ digits : List Nat, (∀ d ∈ digits, d < 10) ∧ text = digits.map Nat.digitChar ∧
      n = digits.foldl (fun v d => 10 * v + d) v := by
  induction text generalizing v with
  | nil => simp [parseDigits, eq_comm]
  | cons c cs ih =>
    simp only [parseDigits]
    constructor
    · intro h
      split at h
      · rename_i d hd
        rw [decDigit_iff] at hd
        obtain ⟨ds, h1, h2, h3⟩ := (ih _).1 h
        exact ⟨d :: ds, by simpa [hd.1] using h1, by simp [hd.2, h2], h3⟩
      · cases h
    · rintro ⟨_ | ⟨d, ds⟩, h1, h2, h3⟩
      · cases h2
      · cases h2
        rw [(decDigit_iff _ _).2 ⟨h1 d (by simp), rfl⟩]
        exact (ih _).2 ⟨ds, fun x hx => h1 x (by simp [hx]), rfl, h3⟩

/-- All that `parseLength` accepts, and what it then gives. -/
theorem parseLength_iff (text : List Char) (n : Nat) : parseLength text = some n ↔ DecOperand text n := by
  unfold parseLength DecOperand
  constructor
  · intro h
    split_ifs at h with h1
    simp only [Option.filter_eq_some_iff, decide_eq_true_eq] at h
    obtain ⟨ds, h2, h3, h4⟩ := (parseDigits_iff _ _ _).1 h.1
    exact ⟨ds, by rintro rfl; exact h1 h3, h2, h3, h4, h.2⟩
  · rintro ⟨ds, h1, h2, h3, h4, h5⟩
    rw [if_neg (by rintro rfl; exact h1 (by simpa using h3.symm))]
    simp only [Option.filter_eq_some_iff, decide_eq_true_eq]
    exact ⟨(parseDigits_iff _ _ _).2 ⟨ds, h2, h3, h4⟩, h5⟩

/-- A line splits at its first space. -/
theorem splitLine_append {mnemonic operand : List Char} (h : ' ' ∉ mnemonic) :
    splitLine (mnemonic ++ ' ' :: operand) = (mnemonic, some operand) := by
  induction mnemonic with
  | nil => rfl
  | cons c cs ih =>
    simp only [List.mem_cons, not_or] at h
    simp [splitLine, Ne.symm h.1, ih h.2]

/-- The parts of a line make the line. -/
theorem line_of_splitLine (line : List Char) : match splitLine line with
    | (mnemonic, none) => line = mnemonic
    | (mnemonic, some operand) => line = mnemonic ++ ' ' :: operand := by
  induction line with
  | nil => rfl
  | cons c cs ih =>
    simp only [splitLine]
    split_ifs with h
    · simp [h]
    · revert ih
      rcases splitLine cs with ⟨m, _ | o⟩ <;> simp

end Sys2Proof.Machine
end

