-- ==== Sys2Proof/Laws/State.lean ====
section
/-! SUPPORT. What each named update of the state does to each field, so that no later proof unfolds a record update. -/

namespace Sys2Proof.Machine

/-! ### Answering -/

@[simp] theorem answer_mode (s : State) (a : Status) (o : ByteString) : (s.answer a o).mode = s.mode := rfl
@[simp] theorem answer_modeValid (s : State) (a : Status) (o : ByteString) :
    (s.answer a o).modeValid = s.modeValid := rfl
@[simp] theorem answer_key (s : State) (a : Status) (o : ByteString) : (s.answer a o).key = s.key := rfl
@[simp] theorem answer_keySet (s : State) (a : Status) (o : ByteString) : (s.answer a o).keySet = s.keySet := rfl
@[simp] theorem answer_keyLen (s : State) (a : Status) (o : ByteString) : (s.answer a o).keyLen = s.keyLen := rfl
@[simp] theorem answer_keylenLock (s : State) (a : Status) (o : ByteString) :
    (s.answer a o).keylenLock = s.keylenLock := rfl
@[simp] theorem answer_ivCfg (s : State) (a : Status) (o : ByteString) : (s.answer a o).ivCfg = s.ivCfg := rfl
@[simp] theorem answer_ivSet (s : State) (a : Status) (o : ByteString) : (s.answer a o).ivSet = s.ivSet := rfl
@[simp] theorem answer_padEn (s : State) (a : Status) (o : ByteString) : (s.answer a o).padEn = s.padEn := rfl
@[simp] theorem answer_cbEn (s : State) (a : Status) (o : ByteString) : (s.answer a o).cbEn = s.cbEn := rfl
@[simp] theorem answer_changed (s : State) (a : Status) (o : ByteString) : (s.answer a o).changed = s.changed := rfl
@[simp] theorem answer_backend (s : State) (a : Status) (o : ByteString) : (s.answer a o).backend = s.backend := rfl
@[simp] theorem answer_ksched (s : State) (a : Status) (o : ByteString) : (s.answer a o).ksched = s.ksched := rfl
@[simp] theorem answer_enc (s : State) (a : Status) (o : ByteString) : (s.answer a o).enc = s.enc := rfl
@[simp] theorem answer_dec (s : State) (a : Status) (o : ByteString) : (s.answer a o).dec = s.dec := rfl
@[simp] theorem answer_draws (s : State) (a : Status) (o : ByteString) : (s.answer a o).draws = s.draws := rfl
@[simp] theorem answer_pending (s : State) (a : Status) (o : ByteString) : (s.answer a o).pending = s.pending := rfl
@[simp] theorem answer_answers (s : State) (a : Status) (o : ByteString) :
    (s.answer a o).answers = s.answers ++ [⟨a, o⟩] := rfl
@[simp] theorem raise_mode (e : ErrorKind) (s : State) : (raise e s).mode = s.mode := rfl
@[simp] theorem raise_modeValid (e : ErrorKind) (s : State) : (raise e s).modeValid = s.modeValid := rfl
@[simp] theorem raise_key (e : ErrorKind) (s : State) : (raise e s).key = s.key := rfl
@[simp] theorem raise_keySet (e : ErrorKind) (s : State) : (raise e s).keySet = s.keySet := rfl
@[simp] theorem raise_keyLen (e : ErrorKind) (s : State) : (raise e s).keyLen = s.keyLen := rfl
@[simp] theorem raise_keylenLock (e : ErrorKind) (s : State) : (raise e s).keylenLock = s.keylenLock := rfl
@[simp] theorem raise_ivCfg (e : ErrorKind) (s : State) : (raise e s).ivCfg = s.ivCfg := rfl
@[simp] theorem raise_ivSet (e : ErrorKind) (s : State) : (raise e s).ivSet = s.ivSet := rfl
@[simp] theorem raise_padEn (e : ErrorKind) (s : State) : (raise e s).padEn = s.padEn := rfl
@[simp] theorem raise_cbEn (e : ErrorKind) (s : State) : (raise e s).cbEn = s.cbEn := rfl
@[simp] theorem raise_changed (e : ErrorKind) (s : State) : (raise e s).changed = s.changed := rfl
@[simp] theorem raise_backend (e : ErrorKind) (s : State) : (raise e s).backend = s.backend := rfl
@[simp] theorem raise_ksched (e : ErrorKind) (s : State) : (raise e s).ksched = s.ksched := rfl
@[simp] theorem raise_enc (e : ErrorKind) (s : State) : (raise e s).enc = s.enc := rfl
@[simp] theorem raise_dec (e : ErrorKind) (s : State) : (raise e s).dec = s.dec := rfl
@[simp] theorem raise_draws (e : ErrorKind) (s : State) : (raise e s).draws = s.draws := rfl
@[simp] theorem raise_pending (e : ErrorKind) (s : State) : (raise e s).pending = s.pending := rfl
@[simp] theorem raise_answers (e : ErrorKind) (s : State) : (raise e s).answers = s.answers ++ [⟨.error e, []⟩] := rfl

/-! ### The streams -/

@[simp] theorem setStream_mode (s : State) (d : Dir) (w : Stream) :
    (s.setStream d w).mode = s.mode := by cases d <;> rfl
@[simp] theorem setStream_modeValid (s : State) (d : Dir) (w : Stream) :
    (s.setStream d w).modeValid = s.modeValid := by cases d <;> rfl
@[simp] theorem setStream_key (s : State) (d : Dir) (w : Stream) : (s.setStream d w).key = s.key := by cases d <;> rfl
@[simp] theorem setStream_keySet (s : State) (d : Dir) (w : Stream) :
    (s.setStream d w).keySet = s.keySet := by cases d <;> rfl
@[simp] theorem setStream_keyLen (s : State) (d : Dir) (w : Stream) :
    (s.setStream d w).keyLen = s.keyLen := by cases d <;> rfl
@[simp] theorem setStream_keylenLock (s : State) (d : Dir) (w : Stream) :
    (s.setStream d w).keylenLock = s.keylenLock := by cases d <;> rfl
@[simp] theorem setStream_ivCfg (s : State) (d : Dir) (w : Stream) :
    (s.setStream d w).ivCfg = s.ivCfg := by cases d <;> rfl
@[simp] theorem setStream_ivSet (s : State) (d : Dir) (w : Stream) :
    (s.setStream d w).ivSet = s.ivSet := by cases d <;> rfl
@[simp] theorem setStream_padEn (s : State) (d : Dir) (w : Stream) :
    (s.setStream d w).padEn = s.padEn := by cases d <;> rfl
@[simp] theorem setStream_cbEn (s : State) (d : Dir) (w : Stream) :
    (s.setStream d w).cbEn = s.cbEn := by cases d <;> rfl
@[simp] theorem setStream_changed (s : State) (d : Dir) (w : Stream) :
    (s.setStream d w).changed = s.changed := by cases d <;> rfl
@[simp] theorem setStream_backend (s : State) (d : Dir) (w : Stream) :
    (s.setStream d w).backend = s.backend := by cases d <;> rfl
@[simp] theorem setStream_ksched (s : State) (d : Dir) (w : Stream) :
    (s.setStream d w).ksched = s.ksched := by cases d <;> rfl
@[simp] theorem setStream_draws (s : State) (d : Dir) (w : Stream) :
    (s.setStream d w).draws = s.draws := by cases d <;> rfl
@[simp] theorem setStream_pending (s : State) (d : Dir) (w : Stream) :
    (s.setStream d w).pending = s.pending := by cases d <;> rfl
@[simp] theorem setStream_answers (s : State) (d : Dir) (w : Stream) :
    (s.setStream d w).answers = s.answers := by cases d <;> rfl
@[simp] theorem resetStreams_mode (P : Params) (s : State) : (resetStreams P s).mode = s.mode := rfl
@[simp] theorem resetStreams_modeValid (P : Params) (s : State) : (resetStreams P s).modeValid = s.modeValid := rfl
@[simp] theorem resetStreams_key (P : Params) (s : State) : (resetStreams P s).key = s.key := rfl
@[simp] theorem resetStreams_keySet (P : Params) (s : State) : (resetStreams P s).keySet = s.keySet := rfl
@[simp] theorem resetStreams_keyLen (P : Params) (s : State) : (resetStreams P s).keyLen = s.keyLen := rfl
@[simp] theorem resetStreams_keylenLock (P : Params) (s : State) : (resetStreams P s).keylenLock = s.keylenLock := rfl
@[simp] theorem resetStreams_ivCfg (P : Params) (s : State) : (resetStreams P s).ivCfg = s.ivCfg := rfl
@[simp] theorem resetStreams_ivSet (P : Params) (s : State) : (resetStreams P s).ivSet = s.ivSet := rfl
@[simp] theorem resetStreams_padEn (P : Params) (s : State) : (resetStreams P s).padEn = s.padEn := rfl
@[simp] theorem resetStreams_cbEn (P : Params) (s : State) : (resetStreams P s).cbEn = s.cbEn := rfl
@[simp] theorem resetStreams_changed (P : Params) (s : State) : (resetStreams P s).changed = s.changed := rfl
@[simp] theorem resetStreams_backend (P : Params) (s : State) : (resetStreams P s).backend = s.backend := rfl
@[simp] theorem resetStreams_ksched (P : Params) (s : State) : (resetStreams P s).ksched = s.ksched := rfl
@[simp] theorem resetStreams_enc (P : Params) (s : State) : (resetStreams P s).enc = fresh P s := rfl
@[simp] theorem resetStreams_dec (P : Params) (s : State) : (resetStreams P s).dec = fresh P s := rfl
@[simp] theorem resetStreams_draws (P : Params) (s : State) : (resetStreams P s).draws = s.draws := rfl
@[simp] theorem resetStreams_pending (P : Params) (s : State) : (resetStreams P s).pending = s.pending := rfl
@[simp] theorem resetStreams_answers (P : Params) (s : State) : (resetStreams P s).answers = s.answers := rfl

/-! ### The backend draw and the setup -/

@[simp] theorem drawBackend_mode (P : Params) (s : State) : (drawBackend P s).mode = s.mode := rfl
@[simp] theorem drawBackend_modeValid (P : Params) (s : State) : (drawBackend P s).modeValid = s.modeValid := rfl
@[simp] theorem drawBackend_key (P : Params) (s : State) : (drawBackend P s).key = s.key := rfl
@[simp] theorem drawBackend_keySet (P : Params) (s : State) : (drawBackend P s).keySet = s.keySet := rfl
@[simp] theorem drawBackend_keyLen (P : Params) (s : State) : (drawBackend P s).keyLen = s.keyLen := rfl
@[simp] theorem drawBackend_keylenLock (P : Params) (s : State) : (drawBackend P s).keylenLock = s.keylenLock := rfl
@[simp] theorem drawBackend_ivCfg (P : Params) (s : State) : (drawBackend P s).ivCfg = s.ivCfg := rfl
@[simp] theorem drawBackend_ivSet (P : Params) (s : State) : (drawBackend P s).ivSet = s.ivSet := rfl
@[simp] theorem drawBackend_padEn (P : Params) (s : State) : (drawBackend P s).padEn = s.padEn := rfl
@[simp] theorem drawBackend_cbEn (P : Params) (s : State) : (drawBackend P s).cbEn = s.cbEn := rfl
@[simp] theorem drawBackend_changed (P : Params) (s : State) : (drawBackend P s).changed = s.changed := rfl
@[simp] theorem drawBackend_backend (P : Params) (s : State) :
    (drawBackend P s).backend = P.backendDraw s.draws s.mode s.keyLen s.cbEn := rfl
@[simp] theorem drawBackend_ksched (P : Params) (s : State) : (drawBackend P s).ksched = s.ksched := rfl
@[simp] theorem drawBackend_enc (P : Params) (s : State) : (drawBackend P s).enc = s.enc := rfl
@[simp] theorem drawBackend_dec (P : Params) (s : State) : (drawBackend P s).dec = s.dec := rfl
@[simp] theorem drawBackend_draws (P : Params) (s : State) : (drawBackend P s).draws = s.draws + 1 := rfl
@[simp] theorem drawBackend_pending (P : Params) (s : State) : (drawBackend P s).pending = s.pending := rfl
@[simp] theorem drawBackend_answers (P : Params) (s : State) : (drawBackend P s).answers = s.answers := rfl
@[simp] theorem setup_mode (P : Params) (s : State) : (setup P s).mode = s.mode := rfl
@[simp] theorem setup_modeValid (P : Params) (s : State) : (setup P s).modeValid = s.modeValid := rfl
@[simp] theorem setup_key (P : Params) (s : State) : (setup P s).key = s.key := rfl
@[simp] theorem setup_keySet (P : Params) (s : State) : (setup P s).keySet = s.keySet := rfl
@[simp] theorem setup_keyLen (P : Params) (s : State) : (setup P s).keyLen = s.keyLen := rfl
@[simp] theorem setup_keylenLock (P : Params) (s : State) : (setup P s).keylenLock = s.keylenLock := rfl
@[simp] theorem setup_ivCfg (P : Params) (s : State) : (setup P s).ivCfg = s.ivCfg := rfl
@[simp] theorem setup_ivSet (P : Params) (s : State) : (setup P s).ivSet = s.ivSet := rfl
@[simp] theorem setup_padEn (P : Params) (s : State) : (setup P s).padEn = s.padEn := rfl
@[simp] theorem setup_cbEn (P : Params) (s : State) : (setup P s).cbEn = s.cbEn := rfl
@[simp] theorem setup_changed (P : Params) (s : State) : (setup P s).changed = false := rfl
@[simp] theorem setup_backend (P : Params) (s : State) :
    (setup P s).backend = P.backendDraw s.draws s.mode s.keyLen s.cbEn := rfl
@[simp] theorem setup_ksched (P : Params) (s : State) : (setup P s).ksched = some (P.setupKey s.key) := rfl
@[simp] theorem setup_enc (P : Params) (s : State) : (setup P s).enc = fresh P s := rfl
@[simp] theorem setup_dec (P : Params) (s : State) : (setup P s).dec = fresh P s := rfl
@[simp] theorem setup_draws (P : Params) (s : State) : (setup P s).draws = s.draws + 1 := rfl
@[simp] theorem setup_pending (P : Params) (s : State) : (setup P s).pending = s.pending := rfl
@[simp] theorem setup_answers (P : Params) (s : State) : (setup P s).answers = s.answers := rfl

/-! ### Reading a stream back -/

@[simp] theorem stream_answer (s : State) (a : Status) (o : ByteString) (d : Dir) :
    (s.answer a o).stream d = s.stream d := by cases d <;> rfl
@[simp] theorem stream_setStream_same (s : State) (d : Dir) (w : Stream) : (s.setStream d w).stream d = w := by
  cases d <;> rfl
theorem stream_setStream_ne (s : State) {d d' : Dir} (w : Stream) (h : d' ≠ d) :
    (s.setStream d w).stream d' = s.stream d' := by
  cases d <;> cases d' <;> first | rfl | exact absurd rfl h
@[simp] theorem setStream_stream (s : State) (d : Dir) : s.setStream d (s.stream d) = s := by cases d <;> rfl
@[simp] theorem setStream_setStream (s : State) (d : Dir) (w w' : Stream) :
    (s.setStream d w).setStream d w' = s.setStream d w' := by cases d <;> rfl
@[simp] theorem stream_resetStreams (P : Params) (s : State) (d : Dir) :
    (resetStreams P s).stream d = fresh P s := by cases d <;> rfl
@[simp] theorem stream_setup (P : Params) (s : State) (d : Dir) : (setup P s).stream d = fresh P s := by
  cases d <;> rfl
theorem fresh_congr (P : Params) {s t : State} (h : s.ivCfg = t.ivCfg) : fresh P s = fresh P t := by
  simp [fresh, h]
@[simp] theorem fresh_setup (P : Params) (s : State) : fresh P (setup P s) = fresh P s := rfl

/-! ### The fields of a stream -/

@[simp] theorem fresh_iv (P : Params) (s : State) : (fresh P s).iv = s.ivCfg := rfl
@[simp] theorem fresh_ks (P : Params) (s : State) : (fresh P s).ks = zeros P.blockSize := rfl
@[simp] theorem fresh_pos (P : Params) (s : State) : (fresh P s).pos = 0 := rfl
@[simp] theorem fresh_sst (P : Params) (s : State) : (fresh P s).sst = none := rfl
@[simp] theorem advance_iv (P : Params) (w : Stream) : (advance P w).iv = w.iv := rfl
@[simp] theorem advance_ks (P : Params) (w : Stream) : (advance P w).ks = w.ks := rfl
@[simp] theorem advance_pos (P : Params) (w : Stream) : (advance P w).pos = (w.pos + 1) % P.blockSize := rfl
@[simp] theorem advance_sst (P : Params) (w : Stream) : (advance P w).sst = w.sst := rfl
@[simp] theorem shiftWindow_iv (c : Byte) (w : Stream) : (shiftWindow c w).iv = w.iv.drop 1 ++ [c] := rfl
@[simp] theorem shiftWindow_ks (c : Byte) (w : Stream) : (shiftWindow c w).ks = w.ks := rfl
@[simp] theorem shiftWindow_pos (c : Byte) (w : Stream) : (shiftWindow c w).pos = w.pos := rfl
@[simp] theorem shiftWindow_sst (c : Byte) (w : Stream) : (shiftWindow c w).sst = w.sst := rfl
@[simp] theorem clearCursor_iv (w : Stream) : (clearCursor w).iv = w.iv := rfl
@[simp] theorem clearCursor_ks (w : Stream) : (clearCursor w).ks = w.ks := rfl
@[simp] theorem clearCursor_pos (w : Stream) : (clearCursor w).pos = 0 := rfl
@[simp] theorem clearCursor_sst (w : Stream) : (clearCursor w).sst = none := rfl

/-! ### The setup only when it is due -/

theorem lazySetup_of_changed (P : Params) {s : State} (h : s.changed = true) : lazySetup P s = setup P s := by
  simp [lazySetup, h]
theorem lazySetup_of_unchanged (P : Params) {s : State} (h : s.changed = false) : lazySetup P s = s := by
  simp [lazySetup, h]
@[simp] theorem lazySetup_mode (P : Params) (s : State) : (lazySetup P s).mode = s.mode := by
  unfold lazySetup; split <;> rfl
@[simp] theorem lazySetup_key (P : Params) (s : State) : (lazySetup P s).key = s.key := by
  unfold lazySetup; split <;> rfl
@[simp] theorem lazySetup_padEn (P : Params) (s : State) : (lazySetup P s).padEn = s.padEn := by
  unfold lazySetup; split <;> rfl
@[simp] theorem lazySetup_ivCfg (P : Params) (s : State) : (lazySetup P s).ivCfg = s.ivCfg := by
  unfold lazySetup; split <;> rfl
@[simp] theorem lazySetup_cbEn (P : Params) (s : State) : (lazySetup P s).cbEn = s.cbEn := by
  unfold lazySetup; split <;> rfl
@[simp] theorem lazySetup_answers (P : Params) (s : State) : (lazySetup P s).answers = s.answers := by
  unfold lazySetup; split <;> rfl
@[simp] theorem lazySetup_changed (P : Params) (s : State) : (lazySetup P s).changed = false := by
  unfold lazySetup; split <;> simp_all
@[simp] theorem fresh_lazySetup (P : Params) (s : State) : fresh P (lazySetup P s) = fresh P s := by
  simp [fresh]

/-! ### The write-back -/

theorem writeBack_on {d : Dir} {w : Stream} {s : State} (h : s.cbEn = true) : writeBack d w s = s.setStream d w := by
  simp [writeBack, h]
theorem writeBack_off {d : Dir} {w : Stream} {s : State} (h : s.cbEn = false) : writeBack d w s = s := by
  simp [writeBack, h]
@[simp] theorem writeBack_answers (d : Dir) (w : Stream) (s : State) : (writeBack d w s).answers = s.answers := by
  unfold writeBack; split <;> simp

end Sys2Proof.Machine
end

