-- ==== Sys2Proof/Laws/Ops.lean ====
section
/-! SUPPORT. What the shared operations on byte strings do: lengths, values, blocks, and the byte loop. -/

namespace Sys2Proof.Machine

/-! ### Strings of bytes -/

theorem xorBytes_length {a b : ByteString} (h : a.length = b.length) : (xorBytes a b).length = a.length := by
  simp [xorBytes, h]

/-- XOR with the same string twice gives the string back. -/
theorem xorBytes_cancel : ∀ {a b : ByteString}, a.length = b.length → xorBytes (xorBytes a b) b = a
  | [], [], _ => rfl
  | x :: a, y :: b, h => by
    have ih := xorBytes_cancel (a := a) (b := b) (by simpa using h)
    simp only [xorBytes, List.zipWith_cons_cons, List.cons.injEq] at ih ⊢
    exact ⟨by rw [BitVec.xor_assoc, BitVec.xor_self, BitVec.xor_zero], ih⟩

theorem byte_xor_cancel (x k : Byte) : x ^^^ k ^^^ k = x := by
  rw [BitVec.xor_assoc, BitVec.xor_self, BitVec.xor_zero]

/-! ### Big-endian values -/

theorem beBytes_length (n v : Nat) : (beBytes n v).length = n := by
  induction n with
  | zero => rfl
  | succ n ih => simp [beBytes, ih]

theorem beVal_lt (s : ByteString) : beVal s < 256 ^ s.length := by
  induction s with
  | nil => simp [beVal]
  | cons b s ih =>
    have hb : b.toNat ≤ 255 := by have := b.isLt; omega
    have := Nat.mul_le_mul_right (256 ^ s.length) hb
    simp only [beVal, List.length_cons, pow_succ]
    omega

/-- `be_bytes(n, v)` has the value `v mod 256^n` (00_scope.md R18). -/
theorem beVal_beBytes (n v : Nat) : beVal (beBytes n v) = v % 256 ^ n := by
  induction n with
  | zero => simp [beVal, beBytes, Nat.mod_one]
  | succ n ih =>
    have h8 : (2 : Nat) ^ 8 = 256 := rfl
    simp only [beBytes, beVal, beBytes_length, ih, BitVec.toNat_ofNat, h8]
    rw [pow_succ, Nat.mod_mul, Nat.mul_comm, Nat.add_comm]

/-- A string is the bytes of its value: `be_bytes` is the only string with it (00_scope.md R18). -/
theorem beBytes_add_mul (n v k : Nat) : beBytes n (v + k * 256 ^ n) = beBytes n v := by
  induction n generalizing k with
  | zero => rfl
  | succ n ih =>
    have h1 : (v + k * 256 ^ (n + 1)) / 256 ^ n = v / 256 ^ n + k * 256 := by
      rw [pow_succ, show k * (256 ^ n * 256) = (k * 256) * 256 ^ n by ring,
        Nat.add_mul_div_right _ _ (Nat.pow_pos (by decide))]
    have h2 : v + k * 256 ^ (n + 1) = v + (k * 256) * 256 ^ n := by ring
    simp only [beBytes, h1, List.cons.injEq]
    refine ⟨?_, by rw [h2, ih]⟩
    apply BitVec.eq_of_toNat_eq
    simp [Nat.add_mod]

theorem beBytes_beVal (s : ByteString) : beBytes s.length (beVal s) = s := by
  induction s with
  | nil => rfl
  | cons b s ih =>
    have hlt := beVal_lt s
    simp only [List.length_cons, beBytes, beVal]
    congr 1
    · rw [Nat.add_comm, Nat.add_mul_div_right _ _ (Nat.pow_pos (by decide)), Nat.div_eq_of_lt hlt, Nat.zero_add]
      simp
    · rw [Nat.add_comm, beBytes_add_mul, ih]

theorem beBytes_mod (n v : Nat) : beBytes n (v % 256 ^ n) = beBytes n v := by
  conv_rhs => rw [← Nat.mod_add_div v (256 ^ n), Nat.mul_comm (256 ^ n), beBytes_add_mul]

/-! ### Blocks -/

theorem blocks_nil (n : Nat) : blocks n [] = [] := by simp [blocks]

theorem blocks_length (n : Nat) (s : ByteString) : (blocks n s).length = s.length / n := by simp [blocks]

theorem blocks_cons {n : Nat} (hn : 0 < n) {b s : ByteString} (hb : b.length = n) :
    blocks n (b ++ s) = b :: blocks n s := by
  have hd : (b ++ s).length / n = s.length / n + 1 := by
    rw [List.length_append, hb, Nat.add_comm, Nat.add_div_right _ hn]
  rw [blocks, hd, List.range_succ_eq_map]
  simp only [List.map_cons, List.map_map, blocks]
  refine congrArg₂ _ (by simp [← hb]) ?_
  apply List.map_congr_left
  intro i _
  simp only [Function.comp, Nat.succ_eq_add_one, Nat.add_mul, Nat.one_mul]
  rw [show i * n + n = b.length + i * n by omega, List.drop_append, List.drop_eq_nil_of_le (by omega)]
  simp

/-- A string of whole blocks is taken apart from the front: the one induction over blocks that the proofs need. -/
theorem whole_blocks_induction {n : Nat} {motive : ByteString → Prop} (nil : motive [])
    (cons : ∀ b s : ByteString, b.length = n → s.length % n = 0 → motive s → motive (b ++ s)) :
    ∀ s : ByteString, s.length % n = 0 → motive s := by
  intro s hs
  obtain ⟨k, hk⟩ : ∃ k, s.length = n * k := ⟨s.length / n, by have := Nat.div_add_mod s.length n; omega⟩
  induction k generalizing s with
  | zero => have : s = [] := List.length_eq_zero_iff.mp (by simpa using hk); subst this; exact nil
  | succ k ih =>
    have hle : n ≤ s.length := by rw [hk, Nat.mul_succ]; omega
    have hdrop : (s.drop n).length = n * k := by simp [hk, Nat.mul_succ]
    have h := cons (s.take n) (s.drop n) (by simpa using hle) (by simp [hdrop]) (ih _ (by simp [hdrop]) hdrop)
    rwa [List.take_append_drop] at h

theorem blocks_append {n : Nat} (hn : 0 < n) (t : ByteString) (s : ByteString) (hs : s.length % n = 0) :
    blocks n (s ++ t) = blocks n s ++ blocks n t := by
  refine whole_blocks_induction (motive := fun s => blocks n (s ++ t) = blocks n s ++ blocks n t) ?_ ?_ s hs
  · simp [blocks_nil]
  · intro b s hb _ ih
    rw [List.append_assoc, blocks_cons hn hb, blocks_cons hn hb, ih, List.cons_append]

theorem length_of_mem_blocks {n : Nat} {s b : ByteString} (h : b ∈ blocks n s) : b.length = n := by
  simp only [blocks, List.mem_map, List.mem_range] at h
  obtain ⟨i, hi, rfl⟩ := h
  have : (i + 1) * n ≤ s.length := Nat.le_trans (Nat.mul_le_mul_right n hi) (Nat.div_mul_le_self _ _)
  rw [Nat.add_mul, Nat.one_mul] at this
  simp; omega

/-! ### The byte loop -/

@[simp] theorem forEachByte_nil (f : Byte → Stream → Byte × Stream) (w : Stream) : forEachByte f [] w = ([], w) := rfl

theorem forEachByte_cons (f : Byte → Stream → Byte × Stream) (x : Byte) (xs : ByteString) (w : Stream) :
    forEachByte f (x :: xs) w = ((f x w).1 :: (forEachByte f xs (f x w).2).1, (forEachByte f xs (f x w).2).2) := rfl

theorem forEachByte_length (f : Byte → Stream → Byte × Stream) (xs : ByteString) (w : Stream) :
    (forEachByte f xs w).1.length = xs.length := by
  induction xs generalizing w with
  | nil => rfl
  | cons x xs ih => simp [forEachByte_cons, ih]

/-- The loop over a joined string is the loop over its parts, the second from where the first ends. -/
theorem forEachByte_append (f : Byte → Stream → Byte × Stream) (xs ys : ByteString) (w : Stream) :
    forEachByte f (xs ++ ys) w =
      ((forEachByte f xs w).1 ++ (forEachByte f ys (forEachByte f xs w).2).1,
        (forEachByte f ys (forEachByte f xs w).2).2) := by
  induction xs generalizing w with
  | nil => rfl
  | cons x xs ih => simp [forEachByte_cons, ih]

/-- What one byte keeps, the loop keeps. -/
theorem forEachByte_keeps {f : Byte → Stream → Byte × Stream} {Q : Stream → Prop}
    (h : ∀ x w, Q w → Q (f x w).2) (xs : ByteString) (w : Stream) (hw : Q w) : Q (forEachByte f xs w).2 := by
  induction xs generalizing w with
  | nil => exact hw
  | cons x xs ih => rw [forEachByte_cons]; exact ih _ (h x w hw)

/-- If one byte of `g` undoes one byte of `f` and both leave the same state, the loops do so too. -/
theorem forEachByte_undo {f g : Byte → Stream → Byte × Stream}
    (h : ∀ x w, g (f x w).1 w = (x, (f x w).2)) (xs : ByteString) (w : Stream) :
    forEachByte g (forEachByte f xs w).1 w = (xs, (forEachByte f xs w).2) := by
  induction xs generalizing w with
  | nil => rfl
  | cons x xs ih => simp [forEachByte_cons, h, ih]

end Sys2Proof.Machine
end

