-- ==== Sys2Proof/Laws/Exec.lean ====
section
/-! SUPPORT. What a command and a step can do, said once: every command ends in `finish` of its result, and a result is an
error with nothing written or an output with the registers written. -/

namespace Sys2Proof.Machine

open Sys2Proof.Safety

/-- The result of a command before it is answered: what `finish` is given by the meaning of each constructor. -/
def commandResult (P : Params) : Instr → State → Except ErrorKind (ByteString × State)
  | .setKey k, s => setKeyCmd P k s
  | .setIv v, s => setIvCmd P v s
  | .setMode m, s => setModeCmd P m s
  | .setKeylen n, s => setKeylenCmd P n s
  | .cbEnable, s => cbEnableCmd P s
  | .cbDisable, s => cbDisableCmd P s
  | .padEnable, s => .ok ([], { s with padEn := true })
  | .padDisable, s => .ok ([], { s with padEn := false })
  | .encrypt data, s => crypt P .enc data s
  | .decrypt data, s => crypt P .dec data s

/-- Every command answers: its next state is `finish` of its result. -/
theorem exec_eq_finish (i : Instr) (s : State) : exec i s = .next (finish s (commandResult Config.params i s)) := by
  cases i <;> rfl

theorem exec_cryptInstr (d : Dir) (data : ByteString) (s : State) :
    exec (cryptInstr d data) s = .next (finish s (crypt Config.params d data s)) := by
  cases d <;> rfl

theorem commandResult_cryptInstr (P : Params) (d : Dir) (data : ByteString) (s : State) :
    commandResult P (cryptInstr d data) s = crypt P d data s := by
  cases d <;> rfl

@[simp] theorem finish_ok (s s' : State) (out : ByteString) : finish s (.ok (out, s')) = s'.answer .ok out := rfl
@[simp] theorem finish_error (s : State) (e : ErrorKind) : finish s (.error e) = raise e s := rfl

/-- No result of a command touches the answers given before, nor the commands pending. -/
theorem commandResult_keeps_host {P : Params} {i : Instr} {s s' : State} {out : ByteString}
    (h : commandResult P i s = .ok (out, s')) : s'.answers = s.answers ∧ s'.pending = s.pending := by
  have hcrypt : ∀ d data, crypt P d data s = .ok (out, s') →
      s'.answers = s.answers ∧ s'.pending = s.pending := by
    intro d data h
    unfold crypt at h
    split at h
    · cases h
    · unfold cryptBody at h
      split at h
      · cases h
      · cases h
        constructor
        · simp
        · unfold writeBack lazySetup
          split <;> split <;> simp
  cases i with
  | encrypt data => exact hcrypt _ _ h
  | decrypt data => exact hcrypt _ _ h
  | padEnable => cases h; exact ⟨rfl, rfl⟩
  | padDisable => cases h; exact ⟨rfl, rfl⟩
  | setKey k => simp only [commandResult, setKeyCmd] at h; split at h <;> cases h; exact ⟨rfl, rfl⟩
  | setKeylen n => simp only [commandResult, setKeylenCmd] at h; split at h <;> cases h; exact ⟨rfl, rfl⟩
  | setIv v => simp only [commandResult, setIvCmd] at h; split at h <;> cases h; exact ⟨rfl, rfl⟩
  | setMode m => simp only [commandResult, setModeCmd] at h; split at h <;> cases h; exact ⟨rfl, rfl⟩
  | cbEnable => simp only [commandResult, cbEnableCmd] at h; split at h <;> cases h <;> exact ⟨rfl, rfl⟩
  | cbDisable => simp only [commandResult, cbDisableCmd] at h; split at h <;> cases h <;> exact ⟨rfl, rfl⟩

/-- A command answered OK gave an output and wrote some registers; its next state is those registers, answered. -/
theorem exec_ok {i : Instr} {s t : State} {out : ByteString} (h : exec i s = .next t)
    (ha : t.answers = s.answers ++ [⟨.ok, out⟩]) :
    ∃ s', commandResult Config.params i s = .ok (out, s') ∧ t = s'.answer .ok out := by
  rw [exec_eq_finish] at h
  cases hr : commandResult Config.params i s with
  | error e => rw [hr] at h; cases h; simp at ha
  | ok p =>
    obtain ⟨o, s'⟩ := p
    rw [hr] at h
    cases h
    have := (commandResult_keeps_host hr).1
    simp [this] at ha
    subst ha
    exact ⟨s', rfl, rfl⟩

/-- A command answered with an error raised it, from the state it began in. -/
theorem exec_error {i : Instr} {s t : State} {e : ErrorKind} {out : ByteString} (h : exec i s = .next t)
    (ha : t.answers = s.answers ++ [⟨.error e, out⟩]) :
    commandResult Config.params i s = .error e ∧ t = raise e s ∧ out = [] := by
  rw [exec_eq_finish] at h
  cases hr : commandResult Config.params i s with
  | error e' => rw [hr] at h; cases h; simp at ha; simp [ha]
  | ok p =>
    obtain ⟨o, s'⟩ := p
    rw [hr] at h
    cases h
    have := (commandResult_keeps_host hr).1
    simp [this] at ha

theorem exec_of_ok {i : Instr} {s s' : State} {out : ByteString}
    (h : commandResult Config.params i s = .ok (out, s')) : exec i s = .next (s'.answer .ok out) := by
  rw [exec_eq_finish, h, finish_ok]

theorem exec_of_error {i : Instr} {s : State} {e : ErrorKind}
    (h : commandResult Config.params i s = .error e) : exec i s = .next (raise e s) := by
  rw [exec_eq_finish, h, finish_error]

/-- An error is raised exactly when the command's result is that error. -/
theorem exec_raises_iff {i : Instr} {s : State} {e : ErrorKind} :
    exec i s = .next (raise e s) ↔ commandResult Config.params i s = .error e :=
  ⟨fun h => (exec_error (out := []) h (raise_answers e s)).1, exec_of_error⟩

/-- Every command goes to a next state, by an answer appended to those before. -/
theorem exec_answers (i : Instr) (s : State) :
    ∃ t a, exec i s = .next t ∧ t.answers = s.answers ++ [a] ∧ t.pending = s.pending := by
  cases hr : commandResult Config.params i s with
  | error e => exact ⟨_, _, exec_of_error hr, raise_answers e s, raise_pending e s⟩
  | ok p =>
    obtain ⟨out, s'⟩ := p
    obtain ⟨h1, h2⟩ := commandResult_keeps_host hr
    exact ⟨_, _, exec_of_ok hr, by rw [answer_answers, h1], by rw [answer_pending, h2]⟩

/-- What a step can do: wait, run the decoded command, or raise `IllegalCommand`. -/
theorem step_cases {s t : State} (h : step s = .next t) :
    (s.pending = [] ∧ t = s) ∨
    (∃ c rest i, s.pending = c :: rest ∧ decode c = .ok i ∧ exec i { s with pending := rest } = .next t) ∨
    (∃ c rest e, s.pending = c :: rest ∧ decode c = .error e ∧
      t = raise .illegalCommand { s with pending := rest }) := by
  unfold step at h
  split at h
  · cases h; exact .inl ⟨‹_›, rfl⟩
  · rename_i c rest hp
    split at h
    · exact .inr (.inl ⟨c, rest, _, hp, ‹_›, h⟩)
    · cases h; exact .inr (.inr ⟨c, rest, _, hp, ‹_›, rfl⟩)

end Sys2Proof.Machine
end

