-- ==== Sys2Proof/Laws/Crypt.lean ====
section
/-! SUPPORT. When a data command runs and what it then does: the checks, the working stream, the mode and the write-back. -/

namespace Sys2Proof.Machine

open Sys2Proof.Safety

/-! ### The checks -/

/-- The configuration checks fail exactly when the state is not `Ready`, whatever the data. -/
theorem cryptCheck_configuration_iff {P : Params} {d : Dir} {data : ByteString} {s : State} :
    cryptCheck P d data s = some .configurationError ↔ ¬ Ready s := by
  have hr : Ready s ↔ s.modeValid = true ∧ (s.keySet = true ∧ s.key.length = s.keyLen) ∧
      (usesIv s.mode = true → s.ivSet = true) :=
    ⟨fun h => ⟨h.mode, ⟨h.keySet, h.keyLen⟩, h.iv⟩, fun h => ⟨h.1, h.2.1.1, h.2.1.2, h.2.2⟩⟩
  rw [hr]
  unfold cryptCheck checkMode checkKey checkIv checkLength
  cases s.modeValid <;> cases s.keySet <;> cases s.ivSet <;> cases usesIv s.mode <;>
    by_cases hk : s.key.length = s.keyLen <;> simp [hk]

theorem needsWholeBlocks_iff {d : Dir} {s : State} :
    needsWholeBlocks d s = true ↔ (s.mode = .ecb ∨ s.mode = .cbc) ∧ (d = .dec ∨ s.padEn = false) := by
  cases d <;> cases hm : s.mode <;> cases hp : s.padEn <;> simp [needsWholeBlocks, paddable, hm, hp]

theorem checkLength_none_iff {P : Params} {d : Dir} {data : ByteString} {s : State} :
    checkLength P d data s = none ↔ LengthOk P d data s := by
  have hw := needsWholeBlocks_iff (d := d) (s := s)
  unfold checkLength LengthOk
  split
  · rename_i h
    have := hw.mp h.1
    simp only [reduceCtorEq, false_iff]
    exact fun hl => h.2 (hl this.1 this.2)
  · rename_i h
    simp only [true_iff]
    intro hm hd
    by_contra hn
    exact h ⟨hw.mpr ⟨hm, hd⟩, hn⟩

/-- The checks pass exactly when the state is `Ready` and the length is right. -/
theorem cryptCheck_none_iff {P : Params} {d : Dir} {data : ByteString} {s : State} :
    cryptCheck P d data s = none ↔ Ready s ∧ LengthOk P d data s := by
  have hconf := cryptCheck_configuration_iff (P := P) (d := d) (data := data) (s := s)
  have hlen := checkLength_none_iff (P := P) (d := d) (data := data) (s := s)
  constructor
  · intro h
    have hr : Ready s := by
      by_contra hn
      rw [hconf.mpr hn] at h
      cases h
    refine ⟨hr, hlen.mp ?_⟩
    revert h
    unfold cryptCheck
    cases checkMode s <;> cases checkKey s <;> cases checkIv s <;> simp
  · rintro ⟨hr, hl⟩
    have h1 : checkMode s = none := by simp [checkMode, hr.mode]
    have h2 : checkKey s = none := by simp [checkKey, hr.keySet, hr.keyLen]
    have h3 : checkIv s = none := by
      unfold checkIv
      rw [if_neg]
      rintro ⟨hu, hi⟩
      rw [hr.iv hu] at hi
      cases hi
    simp [cryptCheck, h1, h2, h3, hlen.mpr hl]

/-- Ready with a wrong length, the check that fails is the length. -/
theorem cryptCheck_length_iff {P : Params} {d : Dir} {data : ByteString} {s : State} :
    cryptCheck P d data s = some .lengthError ↔ Ready s ∧ ¬ LengthOk P d data s := by
  have hconf := cryptCheck_configuration_iff (P := P) (d := d) (data := data) (s := s)
  have hnone := cryptCheck_none_iff (P := P) (d := d) (data := data) (s := s)
  have hall : cryptCheck P d data s = none ∨ cryptCheck P d data s = some .configurationError ∨
      cryptCheck P d data s = some .lengthError := by
    unfold cryptCheck checkMode checkKey checkIv checkLength
    split <;> split <;> split <;> split <;> simp
  constructor
  · intro h
    constructor
    · by_contra hn
      rw [hconf.mpr hn] at h
      cases h
    · intro hl
      by_cases hr : Ready s
      · rw [hnone.mpr ⟨hr, hl⟩] at h; cases h
      · rw [hconf.mpr hr] at h; cases h
  · rintro ⟨hr, hl⟩
    rcases hall with h | h | h
    · exact absurd (hnone.mp h).2 hl
    · exact absurd hr (hconf.mp h)
    · exact h

theorem crypt_of_ready {P : Params} {d : Dir} {data : ByteString} {s : State} (hr : Ready s)
    (hl : LengthOk P d data s) : crypt P d data s = cryptBody P d data s := by
  simp [crypt, cryptCheck_none_iff.mpr ⟨hr, hl⟩]

/-- A mode that is not ECB or CBC takes any length. -/
theorem lengthOk_of_not_paddable {P : Params} {d : Dir} {data : ByteString} {s : State}
    (h : paddable s.mode = false) : LengthOk P d data s := by
  intro hm
  rcases hm with hm | hm <;> simp [hm, paddable] at h

/-! ### The working stream -/

theorem workingStream_lazySetup (P : Params) (d : Dir) (s : State) :
    workingStream P d (lazySetup P s) = startStream P d s := by
  unfold workingStream startStream
  cases hc : s.changed <;> cases hb : s.cbEn <;> simp [lazySetup, hc, hb]

/-- The mode functions read `MODE`, `KEY`, `PAD_EN` and `IV_CFG`, and no other register. -/
theorem modeFn_congr (P : Params) {s t : State} (d : Dir) (data : ByteString) (w : Stream) (hm : s.mode = t.mode)
    (hk : s.key = t.key) (hp : s.padEn = t.padEn) (hi : s.ivCfg = t.ivCfg) :
    modeFn P s d data w = modeFn P t d data w := by
  unfold modeFn
  rw [hm, hk, hp, hi]

theorem modeFn_lazySetup (P : Params) (s : State) (d : Dir) (data : ByteString) (w : Stream) :
    modeFn P (lazySetup P s) d data w = modeFn P s d data w :=
  modeFn_congr P d data w (by simp) (by simp) (by simp) (by simp)

/-- The shared procedure after its checks, in terms of the state before the setup. -/
theorem cryptBody_eq (P : Params) (d : Dir) (data : ByteString) (s : State) :
    cryptBody P d data s =
      match modeFn P s d data (startStream P d s) with
      | .error e => .error e
      | .ok (out, w) => .ok (out, writeBack d w (lazySetup P s)) := by
  cases h : modeFn P s d data (startStream P d s) <;>
    simp [cryptBody, modeFn_lazySetup, workingStream_lazySetup, h]

/-- A data command that succeeds passed its checks, ran its mode from the start of its stream, and wrote back. -/
theorem crypt_ok {P : Params} {d : Dir} {data out : ByteString} {s s' : State}
    (h : crypt P d data s = .ok (out, s')) :
    Ready s ∧ LengthOk P d data s ∧
      ∃ w, modeFn P s d data (startStream P d s) = .ok (out, w) ∧ s' = writeBack d w (lazySetup P s) := by
  unfold crypt at h
  split at h
  · cases h
  · rename_i hc
    obtain ⟨hr, hl⟩ := cryptCheck_none_iff.mp hc
    rw [cryptBody_eq] at h
    split at h
    · cases h
    · rename_i w hw
      cases h
      exact ⟨hr, hl, w, hw, rfl⟩

theorem crypt_of_modeFn {P : Params} {d : Dir} {data out : ByteString} {s : State} {w : Stream} (hr : Ready s)
    (hl : LengthOk P d data s) (hw : modeFn P s d data (startStream P d s) = .ok (out, w)) :
    crypt P d data s = .ok (out, writeBack d w (lazySetup P s)) := by
  rw [crypt_of_ready hr hl, cryptBody_eq, hw]

/-- A mode fails only by `Unpad`: in a DECRYPT in ECB or CBC with `PAD_EN = 1`. -/
theorem modeFn_error {P : Params} {s : State} {d : Dir} {data : ByteString} {w : Stream} {e : ErrorKind}
    (h : modeFn P s d data w = .error e) :
    e = .paddingError ∧ d = .dec ∧ (s.mode = .ecb ∨ s.mode = .cbc) ∧ s.padEn = true := by
  have hu : ∀ y, unpadIfEnabled P s.padEn y = .error e → e = .paddingError ∧ s.padEn = true := by
    intro y hy
    unfold unpadIfEnabled at hy
    split at hy
    · rename_i hp
      refine ⟨?_, hp⟩
      unfold unpad at hy
      split at hy
      · cases hy; rfl
      · split at hy <;> cases hy; rfl
    · cases hy
  cases hm : s.mode <;> cases d <;> simp only [modeFn, hm] at h
  case ecb.dec =>
    split at h
    · cases h; obtain ⟨h1, h2⟩ := hu _ ‹_›; exact ⟨h1, rfl, .inl rfl, h2⟩
    · cases h
  case cbc.dec =>
    simp only [cbcDec] at h
    split at h
    · cases h; obtain ⟨h1, h2⟩ := hu _ ‹_›; exact ⟨h1, rfl, .inr rfl, h2⟩
    · cases h
  all_goals cases h

/-- A data command answered OK: what its checks, its mode and its write-back were. -/
theorem exec_crypt_ok {d : Dir} {data out : ByteString} {s t : State} (h : exec (cryptInstr d data) s = .next t)
    (ha : t.answers = s.answers ++ [⟨.ok, out⟩]) :
    Ready s ∧ LengthOk Config.params d data s ∧
      ∃ w, modeFn Config.params s d data (startStream Config.params d s) = .ok (out, w) ∧
        t = (writeBack d w (lazySetup Config.params s)).answer .ok out := by
  obtain ⟨s', hr, rfl⟩ := exec_ok h ha
  rw [commandResult_cryptInstr] at hr
  obtain ⟨h1, h2, w, h3, rfl⟩ := crypt_ok hr
  exact ⟨h1, h2, w, h3, rfl⟩

/-- A data command whose checks pass and whose mode succeeds answers OK. -/
theorem exec_crypt_of {d : Dir} {data out : ByteString} {s : State} {w : Stream} (hr : Ready s)
    (hl : LengthOk Config.params d data s)
    (hw : modeFn Config.params s d data (startStream Config.params d s) = .ok (out, w)) :
    exec (cryptInstr d data) s = .next ((writeBack d w (lazySetup Config.params s)).answer .ok out) :=
  exec_of_ok (by rw [commandResult_cryptInstr]; exact crypt_of_modeFn hr hl hw)

/-- With `CB_EN = 1` the stream of the direction ends as the mode left it. -/
theorem stream_of_writeBack {d : Dir} {out : ByteString} {w : Stream} {s : State} (h : s.cbEn = true) :
    ((writeBack d w (lazySetup Config.params s)).answer .ok out).stream d = w := by
  rw [writeBack_on (by simpa using h)]; simp

/-- The stream of a data command has its widths in every state that meets the invariant. -/
theorem startStream_shape {P : Params} {s : State} (hi : Inv P s) (d : Dir) : StreamShape P (startStream P d s) := by
  unfold startStream
  split
  · cases d
    · exact hi.enc_shape
    · exact hi.dec_shape
  · exact ⟨hi.ivCfg_length, by simp [fresh], P.blockSize_pos⟩

/-! ### The loops of CBC over joined blocks -/

theorem cbcEncLoop_append (P : Params) (key : ByteString) (as bs : List ByteString) (c : ByteString) :
    cbcEncLoop P key (as ++ bs) c =
      ((cbcEncLoop P key as c).1 ++ (cbcEncLoop P key bs (cbcEncLoop P key as c).2).1,
        (cbcEncLoop P key bs (cbcEncLoop P key as c).2).2) := by
  induction as generalizing c with
  | nil => rfl
  | cons a as ih => simp [cbcEncLoop, ih]

theorem cbcDecLoop_append (P : Params) (key : ByteString) (as bs : List ByteString) (c : ByteString) :
    cbcDecLoop P key (as ++ bs) c =
      ((cbcDecLoop P key as c).1 ++ (cbcDecLoop P key bs (cbcDecLoop P key as c).2).1,
        (cbcDecLoop P key bs (cbcDecLoop P key as c).2).2) := by
  induction as generalizing c with
  | nil => rfl
  | cons a as ih => simp [cbcDecLoop, ih]

end Sys2Proof.Machine
end

