-- ==== Sys2Proof/Laws/Decode.lean ====
section
/-! SUPPORT. The fields of a command word and the word they make. -/

namespace Sys2Proof

@[simp] theorem opc_packWord (a : BitVec 16) (b : BitVec 5) (c : BitVec 3) (d : BitVec 8) :
    (packWord a b c d).opc = d := by
  apply BitVec.eq_of_getLsbD_eq
  intro i hi
  simp only [packWord, Word.opc, BitVec.getLsbD_extractLsb', BitVec.getLsbD_append]
  simp [hi]

@[simp] theorem modef_packWord (a : BitVec 16) (b : BitVec 5) (c : BitVec 3) (d : BitVec 8) :
    (packWord a b c d).modef = c := by
  apply BitVec.eq_of_getLsbD_eq
  intro i hi
  simp only [packWord, Word.modef, BitVec.getLsbD_extractLsb', BitVec.getLsbD_append]
  simp [hi]

@[simp] theorem rsv_packWord (a : BitVec 16) (b : BitVec 5) (c : BitVec 3) (d : BitVec 8) :
    (packWord a b c d).rsv = b := by
  apply BitVec.eq_of_getLsbD_eq
  intro i hi
  have h1 : ¬ 11 + i < 8 := by omega
  have h2 : ¬ 11 + i - 8 < 3 := by omega
  have h3 : 11 + i - 8 - 3 = i := by omega
  simp only [packWord, Word.rsv, BitVec.getLsbD_extractLsb', BitVec.getLsbD_append]
  simp [hi, h1, h2, h3]

@[simp] theorem imm16_packWord (a : BitVec 16) (b : BitVec 5) (c : BitVec 3) (d : BitVec 8) :
    (packWord a b c d).imm16 = a := by
  apply BitVec.eq_of_getLsbD_eq
  intro i hi
  have h1 : ¬ 16 + i < 8 := by omega
  have h2 : ¬ 16 + i - 8 < 3 := by omega
  have h3 : ¬ 16 + i - 8 - 3 < 5 := by omega
  have h4 : 16 + i - 8 - 3 - 5 = i := by omega
  simp only [packWord, Word.imm16, BitVec.getLsbD_extractLsb', BitVec.getLsbD_append]
  simp [hi, h1, h2, h3, h4]

/-- A word is its four fields. -/
theorem packWord_fields (w : Word) : packWord w.imm16 w.rsv w.modef w.opc = w := by
  apply BitVec.eq_of_getLsbD_eq
  intro i hi
  simp only [packWord, Word.opc, Word.modef, Word.rsv, Word.imm16, BitVec.getLsbD_extractLsb', BitVec.getLsbD_append]
  by_cases h1 : i < 8
  · simp [h1]
  · by_cases h2 : i - 8 < 3
    · have e2 : 8 + (i - 8) = i := by omega
      simp [h1, h2, e2]
    · by_cases h3 : i - 8 - 3 < 5
      · have e3 : 11 + (i - 8 - 3) = i := by omega
        simp [h1, h2, h3, e3]
      · have h4 : i - 8 - 3 - 5 < 16 := by omega
        have e4 : 16 + (i - 8 - 3 - 5) = i := by omega
        simp [h1, h2, h3, h4, e4]

/-- A word is determined by its four fields. -/
theorem word_ext {w v : Word} (h1 : w.opc = v.opc) (h2 : w.modef = v.modef) (h3 : w.rsv = v.rsv)
    (h4 : w.imm16 = v.imm16) : w = v := by
  rw [← packWord_fields w, ← packWord_fields v, h1, h2, h3, h4]

/-- The command that an opcode selects has that opcode. -/
theorem opc_of_decodeRow {c : Command} {i : Instr} (h : decodeRow c = some i) : i.opc = c.word.opc := by
  unfold decodeRow at h
  split at h <;> first | (cases h; simp_all [Instr.opc]) | cases h

/-- What decode checked of a command it accepts. -/
theorem decode_ok {c : Command} {i : Instr} (h : decode c = .ok i) :
    decodeRow c = some i ∧ c.word.rsv = 0 ∧ (c.word.opc = 0x03 ∨ c.word.modef = 0) ∧
      (c.word.opc = 0x04 ∨ c.word.imm16 = 0) ∧ (takesNoPayload c.word.opc = false ∨ c.payload = []) := by
  unfold decode at h
  split at h
  · cases h
  · rename_i j hj
    split_ifs at h with h1 h2 h3 h4
    cases h
    refine ⟨hj, by simpa using h1, ?_, ?_, ?_⟩
    · by_cases h : c.word.opc = 0x03
      · exact .inl h
      · exact .inr (by by_contra hn; exact h2 ⟨h, hn⟩)
    · by_cases h : c.word.opc = 0x04
      · exact .inl h
      · exact .inr (by by_contra hn; exact h3 ⟨h, hn⟩)
    · by_cases h : c.payload = []
      · exact .inr h
      · exact .inl (by by_contra hn; exact h4 ⟨by simpa using hn, h⟩)

end Sys2Proof
end

