-- ==== Sys2Proof/Laws/PerInstr.lean ====
section
/-! SUPPORT. A fact about every command as syntax, one lemma per constructor: the word the encoder writes for it is a word
of its row of the opcode map (30_encoding.md R107). -/

namespace Sys2Proof.Laws

/-- The command's row is in the opcode map, and its encoded word selects that row. -/
def EncodedWordMatchesRow.Statement (i : Instr) : Prop :=
  i.row ∈ opcodeTable ∧ (i.wf = true → i.row.selects (encode i).word = true)

theorem row_mem_opcodeTable (i : Instr) : i.row ∈ opcodeTable := by
  cases i <;> simp [opcodeTable, Instr.row]

/-- A word with operand bits selects its row when masking those bits off leaves the row's pattern. -/
theorem setMode_word_selects (modef : BitVec 3) : (Instr.setMode modef).row.selects (packWord 0 0 modef 0x03) = true := by
  revert modef; decide

theorem setKeylen_word_selects (n : BitVec 16) : (Instr.setKeylen 0).row.selects (packWord n 0 0 0x04) = true := by
  simp only [OpcodeRow.selects, Instr.row, beq_iff_eq]
  apply BitVec.eq_of_getLsbD_eq
  intro i hi
  simp only [packWord, BitVec.getLsbD_and, BitVec.getLsbD_append]
  by_cases h : i < 16
  · interval_cases i <;> simp
  · have : (0x0000FFFF#32).getLsbD i = false := by interval_cases i <;> first | omega | rfl
    have : (0x00000004#32).getLsbD i = false := by interval_cases i <;> first | omega | rfl
    simp_all

theorem EncodedWordMatchesRow.setKey (key : ByteString) : EncodedWordMatchesRow.Statement (.setKey key) :=
  ⟨row_mem_opcodeTable _, fun _ =>
    show (Instr.setKey []).row.selects (packWord 0 0 0 (Instr.setKey []).opc) = true by decide⟩

theorem EncodedWordMatchesRow.setIv (iv : ByteString) : EncodedWordMatchesRow.Statement (.setIv iv) :=
  ⟨row_mem_opcodeTable _, fun _ =>
    show (Instr.setIv []).row.selects (packWord 0 0 0 (Instr.setIv []).opc) = true by decide⟩

theorem EncodedWordMatchesRow.setMode (modef : BitVec 3) : EncodedWordMatchesRow.Statement (.setMode modef) :=
  ⟨row_mem_opcodeTable _, fun _ => setMode_word_selects modef⟩

theorem EncodedWordMatchesRow.setKeylen (n : Nat) : EncodedWordMatchesRow.Statement (.setKeylen n) :=
  ⟨row_mem_opcodeTable _, fun _ => setKeylen_word_selects (BitVec.ofNat 16 n)⟩

theorem EncodedWordMatchesRow.cbEnable : EncodedWordMatchesRow.Statement .cbEnable :=
  ⟨by decide, fun _ => by decide⟩

theorem EncodedWordMatchesRow.cbDisable : EncodedWordMatchesRow.Statement .cbDisable :=
  ⟨by decide, fun _ => by decide⟩

theorem EncodedWordMatchesRow.padEnable : EncodedWordMatchesRow.Statement .padEnable :=
  ⟨by decide, fun _ => by decide⟩

theorem EncodedWordMatchesRow.padDisable : EncodedWordMatchesRow.Statement .padDisable :=
  ⟨by decide, fun _ => by decide⟩

theorem EncodedWordMatchesRow.encrypt (data : ByteString) : EncodedWordMatchesRow.Statement (.encrypt data) :=
  ⟨row_mem_opcodeTable _, fun _ =>
    show (Instr.encrypt []).row.selects (packWord 0 0 0 (Instr.encrypt []).opc) = true by decide⟩

theorem EncodedWordMatchesRow.decrypt (data : ByteString) : EncodedWordMatchesRow.Statement (.decrypt data) :=
  ⟨row_mem_opcodeTable _, fun _ =>
    show (Instr.decrypt []).row.selects (packWord 0 0 0 (Instr.decrypt []).opc) = true by decide⟩

end Sys2Proof.Laws
end

