-- ==== Sys2Proof/Tests/Slice0.lean ====
section
/-! SUPPORT. The model's own tests. Expected results are the vectors and the encodings of spec/; each names its own. Then,
for every statement that has hypotheses, a witness: a concrete state and operands that meet them together. -/

namespace Sys2Proof.Tests

open Sys2Proof.Machine Sys2Proof.Safety

/-! ### Well-formedness and decoding -/

/-- R105: `IMM16` holds at most 65535. -/
theorem test_wf_refuses_long_keylen :
    (Instr.setKeylen 65536).wf = false ∧ (Instr.setKeylen 65535).wf = true := by decide

/-- R107: the worked words, and the pattern of each other row. -/
theorem test_decode_rows :
    decode ⟨0x00000001, [1, 2]⟩ = .ok (.setKey [1, 2]) ∧ decode ⟨0x00000002, [3]⟩ = .ok (.setIv [3]) ∧
    decode ⟨0x00000503, []⟩ = .ok (.setMode 5) ∧ decode ⟨0x00100004, []⟩ = .ok (.setKeylen 16) ∧
    decode ⟨0x00000005, []⟩ = .ok .cbEnable ∧ decode ⟨0x00000006, []⟩ = .ok .cbDisable ∧
    decode ⟨0x00000007, []⟩ = .ok .padEnable ∧ decode ⟨0x00000008, []⟩ = .ok .padDisable ∧
    decode ⟨0x00000010, [4]⟩ = .ok (.encrypt [4]) ∧ decode ⟨0x00000011, [5]⟩ = .ok (.decrypt [5]) :=
  ⟨rfl, rfl, rfl, rfl, rfl, rfl, rfl, rfl, rfl, rfl⟩

/-- 95_test_vectors.md X1 to X5: unassigned opcodes. -/
theorem test_decode_unassigned :
    ∀ w ∈ ([0x00000000, 0x00000009, 0x0000000F, 0x00000012, 0x000000FF] : List Word),
      decode ⟨w, []⟩ = .error .unassignedOpcode := by
  simp only [List.forall_mem_cons]
  exact ⟨rfl, rfl, rfl, rfl, rfl, fun _ h => absurd h List.not_mem_nil⟩

/-- 95_test_vectors.md X6 to X15: a stray bit or a stray payload. -/
theorem test_decode_stray :
    decode ⟨0x00000801, []⟩ = .error .reservedBits ∧ decode ⟨0x00008001, []⟩ = .error .reservedBits ∧
    decode ⟨0x00000105, []⟩ = .error .strayModef ∧ decode ⟨0x00000110, []⟩ = .error .strayModef ∧
    decode ⟨0x00010003, []⟩ = .error .strayImm16 ∧ decode ⟨0x00100005, []⟩ = .error .strayImm16 ∧
    decode ⟨0x00040104, []⟩ = .error .strayModef ∧ decode ⟨0x00000007, [0]⟩ = .error .strayPayload ∧
    decode ⟨0x00000005, [1]⟩ = .error .strayPayload ∧ decode ⟨0x00000003, [0]⟩ = .error .strayPayload :=
  ⟨rfl, rfl, rfl, rfl, rfl, rfl, rfl, rfl, rfl, rfl⟩

/-- No word selects two rows of the opcode map: where both masks are set, their patterns differ. -/
theorem test_rows_do_not_overlap :
    opcodeTable.Pairwise fun r q => r.mask &&& q.mask &&& (r.pattern ^^^ q.pattern) ≠ 0 := by decide

/-- The words of the opcode table, and the first step after reset with one of them. -/
theorem test_table_words :
    decodeTableWord 32 0x00000002 = some (.setIv []) ∧ decodeTableWord 32 0x00000603 = some (.setMode 6) ∧
    decodeTableWord 32 0x00000009 = none ∧
    step (State.reset.withFetchWord 32 0x00000007) = exec .padEnable State.reset := ⟨rfl, rfl, rfl, rfl⟩

/-- R113: one line of each operand form, and a line that is none. -/
theorem test_assemble :
    assemble "SET_MODE CTR".toList = some (.command ⟨0x00000503, []⟩) ∧
    assemble "SET_KEYLEN 16".toList = some (.command ⟨0x00100004, []⟩) ∧
    assemble "SET_IV 0x10203040".toList = some (.command ⟨0x00000002, [0x10, 0x20, 0x30, 0x40]⟩) ∧
    assemble "CB_DISABLE".toList = some (.command ⟨0x00000006, []⟩) ∧
    assemble "; a comment".toList = some .comment ∧
    assemble "SET_KEYLEN 65536".toList = none := by decide

/-- R301: the codes of the statuses. -/
theorem test_status_codes :
    Status.code .ok = 0 ∧ Status.code (.error .configurationError) = 1 ∧ Status.code (.error .lengthError) = 2 ∧
    Status.code (.error .paddingError) = 3 ∧ Status.code (.error .unsupportedModeError) = 4 ∧
    Status.code (.error .illegalCommand) = 5 := by decide

/-! ### The fixtures of 95_test_vectors.md section 0: `B = 4`, the primitives T1, T2 and TS -/

/-- The first four bytes of a key, a shorter one filled with zeros. -/
def key4 (k : ByteString) : ByteString := (k ++ zeros 4).take 4

theorem key4_length (k : ByteString) : (key4 k).length = 4 := by simp [key4]

/-- `rotl1` of T2. -/
def rotl1 (b : ByteString) : ByteString := b.drop 1 ++ b.take 1

/-- `rotr1` of T2. -/
def rotr1 (b : ByteString) : ByteString := b.drop 3 ++ b.take 3

theorem rotl1_length {b : ByteString} (h : b.length = 4) : (rotl1 b).length = 4 := by simp [rotl1, h]

theorem rotr1_length {b : ByteString} (h : b.length = 4) : (rotr1 b).length = 4 := by simp [rotr1, h]

theorem rotr1_rotl1 {b : ByteString} (h : b.length = 4) : rotr1 (rotl1 b) = b := by
  match b, h with
  | [_, _, _, _], _ => rfl

/-- TS, its state written as the offset before the key. -/
def tsXform (_ : Dir) (s data : ByteString) : ByteString × ByteString :=
  let j := (s.headD 0).toNat
  (data.mapIdx fun i x => x ^^^ s.tail.getD ((j + i) % s.tail.length) 0,
    BitVec.ofNat 8 ((j + data.length) % s.tail.length) :: s.tail)

theorem tsXform_undoes (d e : Dir) (s data : ByteString) : (tsXform d s (tsXform e s data).1).1 = data := by
  simp only [tsXform, List.mapIdx_mapIdx]
  apply List.ext_getElem (by simp)
  intro i h1 h2
  simp

/-- T1, a block primitive, with `KEY_LENGTHS = [4, 8]`. -/
def t1 : Params where
  blockSize := 4
  encryptBlock := fun k b => xorBytes b (key4 k)
  decryptBlock := fun k b => xorBytes b (key4 k)
  setupKey := id
  streamInit := fun k _ => 0 :: k
  streamXform := tsXform
  keyLengths := [4, 8]
  primitive := .block
  supportedModes := [.ecb, .cbc, .cfb, .cfb8, .ofb, .ctr]
  select := fun _ _ _ b => b == .internal
  backendDraw := fun _ _ _ _ => .internal
  blockSize_pos := by decide
  blockSize_le := by decide
  encryptBlock_length := fun k b h => by rw [xorBytes_length (by rw [h, key4_length]), h]
  decryptBlock_length := fun k b h => by rw [xorBytes_length (by rw [h, key4_length]), h]
  decrypt_encrypt := fun k b _ h => xorBytes_cancel (by rw [h, key4_length])
  streamXform_length := fun d s data => by simp [tsXform]
  stream_decrypt_encrypt := fun s data => tsXform_undoes _ _ s data
  keyLengths_lt := by decide
  keyLengths_ne := by decide
  supportedModes_block := fun _ _ h => h
  supportedModes_stream := fun h => by cases h
  supportedModes_ne := by decide
  select_internal := fun _ _ _ => rfl
  select_backendDraw := fun _ _ _ _ => rfl

/-- T2: as T1 with `E2(k, b) = rotl1(b XOR k)` and `D2(k, c) = rotr1(c) XOR k`. -/
def t2 : Params := { t1 with
  encryptBlock := fun k b => rotl1 (xorBytes b (key4 k))
  decryptBlock := fun k c => xorBytes (rotr1 c) (key4 k)
  encryptBlock_length := fun k b h =>
    rotl1_length (by rw [xorBytes_length (by rw [show b.length = 4 from h, key4_length])]; exact h)
  decryptBlock_length := fun k b h => by
    have h4 := rotr1_length (show b.length = 4 from h)
    rw [xorBytes_length (by rw [h4, key4_length])]; exact h4
  decrypt_encrypt := fun k b _ h => by
    have h4 : b.length = (key4 k).length := by rw [key4_length]; exact h
    show xorBytes (rotr1 (rotl1 (xorBytes b (key4 k)))) (key4 k) = b
    rw [rotr1_rotl1 (by rw [xorBytes_length h4]; exact h), xorBytes_cancel h4] }

/-- TS, a stream primitive. -/
def ts : Params := { t1 with
  primitive := .stream
  supportedModes := [.stream]
  supportedModes_block := fun h => by cases h
  supportedModes_stream := fun _ m => by simp
  supportedModes_ne := by decide }

/-- Bytes as numbers, byte 0 first. -/
def bytes (s : List Nat) : ByteString := s.map (BitVec.ofNat 8)

/-- The key `K = 01020304`. -/
def keyK : ByteString := bytes [1, 2, 3, 4]

/-- The plaintext `P6 = AABBCCDD1122`. -/
def p6 : ByteString := bytes [0xAA, 0xBB, 0xCC, 0xDD, 0x11, 0x22]

/-- "Configured as `<mode>, IV, pad p, cb c`", with the stream of both directions given. -/
def configured (m : Mode) (iv : ByteString) (padEn cbEn changed : Bool) (w : Stream) : State :=
  { mode := m, modeValid := true, key := keyK, keySet := true, keyLen := 4, keylenLock := false, ivCfg := iv,
    ivSet := true, padEn := padEn, cbEn := cbEn, changed := changed, backend := .internal, ksched := none, enc := w,
    dec := w, draws := 0, pending := [], answers := [] }

/-- Both streams as `Fresh()`. -/
def atRest (m : Mode) (iv : List Nat) (padEn : Bool) : State :=
  configured m (bytes iv) padEn false true ⟨bytes iv, zeros 4, 0, none⟩

/-- A command's answer and one part of the state it leaves. -/
def answerOf {α : Type} (part : State → α) (s : State) (r : Except ErrorKind (ByteString × State)) : Status × ByteString × α :=
  match r with
  | .ok (out, t) => (.ok, out, part t)
  | .error e => (.error e, [], part s)

/-- The answer of a data command. -/
def runs (P : Params) (d : Dir) (data : List Nat) (s : State) : Status × List Nat :=
  match crypt P d (bytes data) s with
  | .ok (out, _) => (.ok, out.map BitVec.toNat)
  | .error e => (.error e, [])

/-! ### The commands -/

/-- K2: SET_KEY. -/
theorem test_setKey :
    answerOf (fun t => (t.key, t.keyLen, t.keySet, t.changed)) State.reset (setKeyCmd t1 keyK State.reset) =
      (.ok, [], keyK, 4, true, true) := by decide

/-- K11: SET_KEY of a length other than the one SET_KEYLEN fixed. -/
theorem test_setKey_locked :
    let s := { State.reset with keyLen := 8, keylenLock := true }
    answerOf State.keySet s (setKeyCmd t1 keyK s) = (.error .lengthError, [], false) := by decide

/-- S1: SET_IV restarts both streams. -/
theorem test_setIv :
    answerOf (fun t => (t.ivCfg, t.ivSet, t.enc, t.dec)) State.reset (setIvCmd t1 keyK State.reset) =
      (.ok, [], keyK, true, ⟨keyK, zeros 4, 0, none⟩, ⟨keyK, zeros 4, 0, none⟩) := by decide

/-- S2: SET_IV of a wrong length. -/
theorem test_setIv_length :
    answerOf State.ivSet State.reset (setIvCmd t1 (bytes [1, 2, 3]) State.reset) =
      (.error .lengthError, [], false) := by decide

/-- K4: SET_MODE. -/
theorem test_setMode :
    answerOf (fun t => (t.mode, t.modeValid, t.changed)) State.reset (setModeCmd t1 5 State.reset) =
      (.ok, [], .ctr, true, true) := by decide

/-- K5, and X16 on the hardware's own parameters: SET_MODE of an unsupported mode and of the reserved code. -/
theorem test_setMode_refused :
    answerOf State.modeValid State.reset (setModeCmd t1 6 State.reset) =
      (.error .unsupportedModeError, [], false) ∧
    exec (.setMode 7) State.reset = .next (raise .unsupportedModeError State.reset) := ⟨by decide, rfl⟩

/-- K9: SET_KEYLEN. -/
theorem test_setKeylen :
    answerOf (fun t => (t.keyLen, t.keylenLock, t.changed)) State.reset (setKeylenCmd t1 8 State.reset) =
      (.ok, [], 8, true, true) := by decide

/-- K14: SET_KEYLEN of an unsupported length. -/
theorem test_setKeylen_length :
    answerOf State.keylenLock State.reset (setKeylenCmd t1 5 State.reset) = (.error .lengthError, [], false) := by
  decide

/-- R231: CB_ENABLE clears the cursor and the stream state and keeps the chaining register. -/
theorem test_cbEnable :
    let s := configured .cfb keyK true false false ⟨p6, p6, 3, some []⟩
    answerOf (fun t => (t.cbEn, t.enc, t.dec)) s (cbEnableCmd t1 s) =
      (.ok, [], true, ⟨p6, p6, 0, none⟩, ⟨p6, p6, 0, none⟩) := by decide

/-- P2 command 11: CB_DISABLE restarts both streams from `IV_CFG`. -/
theorem test_cbDisable :
    let s := configured .ctr (bytes [0xFF, 0xFF, 0xFF, 0xFE]) true true false ⟨keyK, keyK, 3, none⟩
    answerOf (fun t => (t.cbEn, t.enc, t.dec)) s (cbDisableCmd t1 s) =
      (.ok, [], false, fresh t1 s, ⟨bytes [0xFF, 0xFF, 0xFF, 0xFE], zeros 4, 0, none⟩) := by decide

/-- R214, R215: the pad switches write `PAD_EN`. -/
theorem test_pad_switches :
    exec .padDisable State.reset = .next { State.reset with padEn := false, answers := [⟨.ok, []⟩] } ∧
    exec .padEnable State.reset = .next { State.reset with answers := [⟨.ok, []⟩] } := ⟨rfl, rfl⟩

/-- EB2, CB8, FB5, F85, OF5, CT5 (T2) and ST1 (TS): ENCRYPT in each mode. -/
theorem test_encrypt_modes :
    runs t2 .enc [0xAA, 0xBB, 0xCC, 0xDD, 0x11, 0x22] (atRest .ecb [0x10, 0x20, 0x30, 0x40] true) =
      (.ok, [0xB9, 0xCF, 0xD9, 0xAB, 0x20, 0x01, 0x06, 0x10]) ∧
    runs t2 .enc [0xAA, 0xBB, 0xCC, 0xDD, 0x11, 0x22] (atRest .cbc [0x10, 0x20, 0x30, 0x40] true) =
      (.ok, [0x99, 0xFF, 0x99, 0xBB, 0xDF, 0x98, 0xBD, 0x89]) ∧
    runs t2 .enc [0xAA, 0xBB, 0xCC, 0xDD, 0x11, 0x22] (atRest .cfb [0x10, 0x20, 0x30, 0x40] true) =
      (.ok, [0x88, 0x88, 0x88, 0xCC, 0x9B, 0xA9]) ∧
    runs t2 .enc [0xAA, 0xBB, 0xCC, 0xDD, 0x11, 0x22] (atRest .cfb8 [0x10, 0x20, 0x30, 0x40] true) =
      (.ok, [0x88, 0x89, 0x8E, 0x57, 0x9A, 0xAE]) ∧
    runs t2 .enc [0xAA, 0xBB, 0xCC, 0xDD, 0x11, 0x22] (atRest .ofb [0x10, 0x20, 0x30, 0x40] true) =
      (.ok, [0x88, 0x88, 0x88, 0xCC, 0x20, 0x65]) ∧
    runs t2 .enc [0xAA, 0xBB, 0xCC, 0xDD, 0x11, 0x22] (atRest .ctr [0x10, 0x20, 0x30, 0x40] true) =
      (.ok, [0x88, 0x88, 0x88, 0xCC, 0x33, 0x11]) ∧
    runs ts .enc [0xAA, 0xBB, 0xCC] (atRest .stream [0, 0, 0, 0] true) = (.ok, [0xAB, 0xB9, 0xCF]) := by decide

/-- CT7 (T1): the counter wraps. P4 command 6 (T2): CFB resumes mid-block. -/
theorem test_encrypt_streams :
    (let s := configured .ctr (bytes [0xFF, 0xFF, 0xFF, 0xFF]) true true true ⟨zeros 4, zeros 4, 0, none⟩
     answerOf State.enc s (crypt t1 .enc (zeros 8) s) =
      (.ok, bytes [0xFE, 0xFD, 0xFC, 0xFB, 1, 2, 3, 4], ⟨bytes [0, 0, 0, 1], keyK, 0, none⟩)) ∧
    (let s := configured .cfb (zeros 4) true true false ⟨bytes [0xA8, 0xB8, 0xC8, 0], bytes [2, 3, 4, 1], 3, none⟩
     answerOf State.enc s (crypt t2 .enc (bytes [0xDD, 0x11, 0x22]) s) =
      (.ok, bytes [0xDC, 0xAB, 0xE9],
        ⟨bytes [0xAB, 0xE9, 0xC8, 0xDC], bytes [0xBA, 0xCB, 0xD8, 0xA9], 2, none⟩)) := by decide

/-- DECRYPT in each mode gives back the plaintext of `test_encrypt_modes`. -/
theorem test_decrypt_modes :
    runs t2 .dec [0xB9, 0xCF, 0xD9, 0xAB, 0x20, 0x01, 0x06, 0x10] (atRest .ecb [0x10, 0x20, 0x30, 0x40] true) =
      (.ok, [0xAA, 0xBB, 0xCC, 0xDD, 0x11, 0x22]) ∧
    runs t2 .dec [0x99, 0xFF, 0x99, 0xBB, 0xDF, 0x98, 0xBD, 0x89] (atRest .cbc [0x10, 0x20, 0x30, 0x40] true) =
      (.ok, [0xAA, 0xBB, 0xCC, 0xDD, 0x11, 0x22]) ∧
    runs t2 .dec [0x88, 0x88, 0x88, 0xCC, 0x9B, 0xA9] (atRest .cfb [0x10, 0x20, 0x30, 0x40] true) =
      (.ok, [0xAA, 0xBB, 0xCC, 0xDD, 0x11, 0x22]) ∧
    runs t2 .dec [0x88, 0x89, 0x8E, 0x57, 0x9A, 0xAE] (atRest .cfb8 [0x10, 0x20, 0x30, 0x40] true) =
      (.ok, [0xAA, 0xBB, 0xCC, 0xDD, 0x11, 0x22]) ∧
    runs t2 .dec [0x88, 0x88, 0x88, 0xCC, 0x20, 0x65] (atRest .ofb [0x10, 0x20, 0x30, 0x40] true) =
      (.ok, [0xAA, 0xBB, 0xCC, 0xDD, 0x11, 0x22]) ∧
    runs t2 .dec [0x88, 0x88, 0x88, 0xCC, 0x33, 0x11] (atRest .ctr [0x10, 0x20, 0x30, 0x40] true) =
      (.ok, [0xAA, 0xBB, 0xCC, 0xDD, 0x11, 0x22]) ∧
    runs ts .dec [0xAB, 0xB9, 0xCF] (atRest .stream [0, 0, 0, 0] true) = (.ok, [0xAA, 0xBB, 0xCC]) := by decide

/-- CB13 (accepted with a wrong output), CB14 and CB15, EB9 and EB13 (T1): what `Unpad` and the length check do. -/
theorem test_decrypt_padding :
    runs t1 .dec [0xAB, 0xB9, 0xCF, 0xD9, 0xBB, 0x99, 0xCE, 0xDE] (atRest .cbc [0, 0, 0, 0] true) =
      (.ok, [0xAA, 0xBB, 0xCC, 0xDD, 0x11]) ∧
    runs t1 .dec [0xAB, 0xB9, 0xCF, 0xD9, 0xBB, 0x99, 0xCE, 0xDB] (atRest .cbc [0, 0, 0, 0] true) =
      (.error .paddingError, []) ∧
    runs t1 .dec [0xAB, 0xB9, 0xCF, 0xD9, 0xBB, 0x99, 0xCE] (atRest .cbc [0, 0, 0, 0] true) =
      (.error .lengthError, []) ∧
    runs t1 .dec [0, 0, 0, 0] (atRest .ecb [0, 0, 0, 0] true) = (.ok, []) ∧
    runs t1 .dec [] (atRest .ecb [0, 0, 0, 0] true) = (.error .paddingError, []) := by decide

/-! ### Witnesses for the hypotheses of the statements, over the hardware's own parameters -/

/-- A key of a supported length. -/
def aKey : ByteString := zeros (Config.params.keyLengths.head Config.params.keyLengths_ne)

/-- A supported mode. -/
def aMode : Mode := Config.params.supportedModes.head Config.params.supportedModes_ne

theorem aKey_supported : aKey.length ∈ Config.params.keyLengths := by simp [aKey]

theorem aMode_supported : aMode ∈ Config.params.supportedModes := by simp [aMode]

/-- A state in which every check of the configuration passes, its streams as reset left them. -/
def aState (m : Mode) (padEn cbEn changed : Bool) : State :=
  { State.reset with
    mode := m, modeValid := true, key := aKey, keySet := true, keyLen := aKey.length, ivSet := true, padEn := padEn
    cbEn := cbEn, changed := changed, ksched := some (Config.params.setupKey aKey) }

theorem aState_ready (m : Mode) (padEn cbEn changed : Bool) : Ready (aState m padEn cbEn changed) :=
  ⟨rfl, rfl, rfl, fun _ => rfl⟩

theorem reset_shape : StreamShape Config.params Stream.reset :=
  ⟨by simp [Stream.reset], by simp [Stream.reset], Config.params.blockSize_pos⟩

theorem aState_start (m : Mode) (padEn cbEn changed : Bool) (d : Dir) :
    startStream Config.params d (aState m padEn cbEn changed) = Stream.reset := by
  cases cbEn <;> cases changed <;> cases d <;> rfl

theorem aState_inv (padEn cbEn changed : Bool) : Inv Config.params (aState aMode padEn cbEn changed) where
  ivCfg_length := by simp [aState, State.reset]
  ivCfg_unset := fun _ => rfl
  enc_shape := reset_shape
  dec_shape := reset_shape
  rest := fun _ => ⟨⟨rfl, rfl, rfl⟩, ⟨rfl, rfl, rfl⟩⟩
  mode_supported := fun _ => aMode_supported
  key_unset := fun h => by cases h
  key_length := fun _ => aKey_supported
  keyLen_lt := Config.params.keyLengths_lt _ aKey_supported
  keyLen_locked := fun h => by cases h
  keyLen_key := fun _ _ => rfl
  ksched_fresh := fun _ => rfl
  backend_admitted := fun _ => Config.params.select_internal _ _ _
  changed_first := fun _ => ⟨rfl, rfl⟩

theorem lengthOk_nil (d : Dir) (s : State) : LengthOk Config.params d [] s := fun _ _ => by simp

/-- With `PAD_EN = 1` an ENCRYPT takes data of any length. -/
theorem lengthOk_padded (data : ByteString) (m : Mode) (cbEn changed : Bool) :
    LengthOk Config.params .enc data (aState m true cbEn changed) := by
  intro _ h
  rcases h with h | h <;> cases h

/-- ENCRYPT of the empty string answers OK, in every mode. -/
theorem encrypt_nil_ok {s : State} (hr : Ready s) :
    ∃ t out, exec (cryptInstr .enc []) s = .next t ∧ t.answers = s.answers ++ [⟨.ok, out⟩] := by
  have h : ∃ out w, modeFn Config.params s .enc [] (startStream Config.params .enc s) = .ok (out, w) := by
    cases hm : s.mode <;> simp only [modeFn, hm] <;> exact ⟨_, _, rfl⟩
  obtain ⟨out, w, hw⟩ := h
  exact ⟨_, out, exec_crypt_of hr (lengthOk_nil _ _) hw, by simp⟩

theorem witness_DecodeOfEncode : (Instr.setKeylen 65535).wf = true ∧ (Instr.setMode 7).wf = true := by decide

theorem witness_EncodeOfDecode : decode ⟨0xFFFF0004, []⟩ = .ok (.setKeylen 65535) := rfl

/-- Each clause of a bad command, at a boundary, and a good one. -/
theorem witness_DecodeChecks :
    (0x00000009 : Word).opc = 0x09 ∧ (0x00000801 : Word).extractLsb' 11 5 = 1 ∧
    (0x00000105 : Word).extractLsb' 8 3 = 1 ∧ (0x00010003 : Word).extractLsb' 16 16 = 1 ∧
    (0x00000008 : Word).opc = 0x08 ∧ (0x00000703 : Word).extractLsb' 11 5 = 0 ∧
    ({ State.reset with pending := [⟨0x00000009, []⟩] }).pending = ⟨0x00000009, []⟩ :: [] :=
  ⟨by decide, by decide, by decide, by decide, by decide, by decide, rfl⟩

/-- A line of each kind of operand, at the boundaries: hexadecimal digits in both cases, with `0x` and without; the empty
payload; the greatest length; a mode; no operand. Then lines that assemble. -/
theorem witness_AssembledLineIsOneCommand :
    (LineForm "ENCRYPT AAbb".toList (.encrypt [0xAA, 0xBB]) ∧ LineForm "SET_KEY 0x0F".toList (.setKey [0x0F]) ∧
      LineForm ['D', 'E', 'C', 'R', 'Y', 'P', 'T', ' ', '"', '"'] (.decrypt []) ∧
      LineForm "SET_KEYLEN 65535".toList (.setKeylen 65535) ∧ LineForm "SET_KEYLEN 0".toList (.setKeylen 0) ∧
      LineForm "SET_MODE CFB8".toList (.setMode 3) ∧ LineForm "PAD_DISABLE".toList .padDisable) ∧
    (assemble "ENCRYPT AAbb".toList = some (.command ⟨0x00000010, [0xAA, 0xBB]⟩) ∧
      assemble "SET_KEY 0x0F".toList = some (.command ⟨0x00000001, [0x0F]⟩) ∧
      assemble ['D', 'E', 'C', 'R', 'Y', 'P', 'T', ' ', '"', '"'] = some (.command ⟨0x00000011, []⟩) ∧
      assemble "SET_KEYLEN 65535".toList = some (.command ⟨0xFFFF0004, []⟩)) := by
  have digit : ∀ {c v}, hexDigit c = some v → IsHexDigit c v := fun h => (isHexDigit_iff _ _).2 h
  refine ⟨⟨.encrypt (text := "AAbb".toList) (.inr ⟨by simp, .inl ?_⟩),
    .setKey (text := "0x0F".toList) (.inr ⟨by simp, .inr ⟨"0F".toList, rfl, ?_⟩⟩),
    .decrypt (.inl ⟨rfl, rfl⟩),
    .setKeylen ⟨[6, 5, 5, 3, 5], by decide, by decide, by decide, by decide, by decide⟩,
    .setKeylen ⟨[0], by decide, by decide, by decide, by decide, by decide⟩, .cfb8, .padDisable⟩, by decide⟩
  · exact .cons (a := 10) (b := 10) (digit rfl) (digit rfl) (.cons (a := 11) (b := 11) (digit rfl) (digit rfl) .nil)
  · exact .cons (a := 0) (b := 15) (digit rfl) (digit rfl) .nil

theorem witness_StepRunsDecodedCommand :
    ({ State.reset with pending := [⟨0x00000010, [1]⟩] }).pending = ⟨0x00000010, [1]⟩ :: [] ∧
    decode ⟨0x00000010, [1]⟩ = .ok (.encrypt [1]) := ⟨rfl, rfl⟩

theorem witness_StepWaitsForCommand : State.reset.pending = [] := rfl

theorem witness_EveryCommandAnsweredOnce :
    ({ State.reset with pending := [⟨0, []⟩, ⟨1, []⟩] }).pending = ⟨0, []⟩ :: [⟨1, []⟩] := rfl

theorem witness_ErrorsChangeNothing :
    let s := { State.reset with pending := [⟨0, []⟩] }
    ∃ t, step s = .next t ∧ t.answers = s.answers ++ [⟨.error .illegalCommand, []⟩] ∧
      Status.error .illegalCommand ≠ .ok := ⟨_, rfl, rfl, by decide⟩

theorem witness_FailedCommandFailsAgain :
    ∃ t, exec (.setMode 7) State.reset = .next t ∧
      t.answers = State.reset.answers ++ [⟨.error .unsupportedModeError, []⟩] := ⟨_, rfl, rfl⟩

theorem witness_StepKeepsInvariant :
    ∃ t, Inv Config.params (aState aMode true true false) ∧ step (aState aMode true true false) = .next t :=
  ⟨_, aState_inv _ _ _, rfl⟩

theorem witness_StreamsRestWhenNotContinuous :
    ∃ t, RestInv (aState aMode true true true) ∧ exec .padEnable (aState aMode true true true) = .next t :=
  ⟨_, (aState_inv _ _ _).rest, rfl⟩

theorem witness_OnlyResetClearsStickyFlags :
    let s := { aState aMode true true true with keylenLock := true, pending := [⟨0x00000008, []⟩] }
    ∃ t, step s = .next t ∧ s.modeValid = true ∧ s.keySet = true ∧ s.ivSet = true ∧ s.keylenLock = true :=
  ⟨_, rfl, rfl, rfl, rfl, rfl⟩

theorem witness_KeyScheduleNeverStale :
    ∃ t out, Inv Config.params (aState aMode true true true) ∧
      exec (cryptInstr .enc []) (aState aMode true true true) = .next t ∧
      t.answers = (aState aMode true true true).answers ++ [⟨.ok, out⟩] := by
  obtain ⟨t, out, h1, h2⟩ := encrypt_nil_ok (aState_ready aMode true true true)
  exact ⟨t, out, aState_inv _ _ _, h1, h2⟩

/-- No key length is 65536, so a key of that length is refused; a lock that fits and one that does not. -/
theorem witness_SetKeyEffect :
    (aKey.length ∈ Config.params.keyLengths ∧ { State.reset with keylenLock := true, keyLen := aKey.length }.keyLen = aKey.length) ∧
    (zeros 65536).length ∉ Config.params.keyLengths ∧
    aKey.length ≠ { State.reset with keylenLock := true, keyLen := aKey.length + 1 }.keyLen := by
  refine ⟨⟨aKey_supported, rfl⟩, fun h => ?_, by simp⟩
  have := Config.params.keyLengths_lt _ h
  simp at this

/-- A mode that is not supported: STREAM of a block primitive, ECB of a stream primitive. -/
theorem unsupported_mode : ∃ m, m ∉ Config.params.supportedModes := by
  cases h : Config.params.primitive with
  | block => exact ⟨.stream, fun hm => by simpa using Config.params.supportedModes_block h _ hm⟩
  | stream => exact ⟨.ecb, fun hm => by simpa using (Config.params.supportedModes_stream h _).1 hm⟩

/-- A supported mode; one that is not; and an instance of each kind of primitive. -/
theorem witness_SetModeEffect :
    aMode ∈ Config.params.supportedModes ∧ (∃ m, m ∉ Config.params.supportedModes) ∧
      t1.primitive = .block ∧ ts.primitive = .stream :=
  ⟨aMode_supported, unsupported_mode, rfl, rfl⟩

theorem witness_SetKeylenEffect : aKey.length ∈ Config.params.keyLengths ∧ 65536 ∉ Config.params.keyLengths :=
  ⟨aKey_supported, fun h => absurd (Config.params.keyLengths_lt _ h) (by decide)⟩

theorem witness_SetIvEffect :
    (zeros Config.params.blockSize).length = Config.params.blockSize ∧
    (zeros (Config.params.blockSize + 1)).length ≠ Config.params.blockSize := by simp

theorem witness_CbEnableEffect :
    (aState aMode true true true).cbEn = true ∧ (aState aMode true false true).cbEn = false := ⟨rfl, rfl⟩

theorem witness_CbDisableEffect :
    (aState aMode true false true).cbEn = false ∧ (aState aMode true true true).cbEn = true := ⟨rfl, rfl⟩

theorem witness_ConfigurationRestartsStreams :
    let s := aState aMode true true false
    ∃ t, exec (.setKey aKey) s = .next t ∧ t.answers = s.answers ++ [⟨.ok, []⟩] ∧
      ∃ u out, exec (cryptInstr .enc []) t = .next u ∧ u.answers = t.answers ++ [⟨.ok, out⟩] := by
  have h : exec (.setKey aKey) (aState aMode true true false) =
      .next ({ aState aMode true true false with changed := true }.answer .ok []) := by
    apply exec_of_ok
    simp [commandResult, setKeyCmd, acceptsKeyLength, aKey_supported, aState, State.reset]
  exact ⟨_, h, rfl, encrypt_nil_ok ⟨rfl, rfl, rfl, fun _ => rfl⟩⟩

theorem witness_ConfigurationIdempotent :
    (∀ d data, Instr.cbEnable ≠ cryptInstr d data) ∧ ∃ t, exec .cbEnable State.reset = .next t :=
  ⟨fun d _ => by cases d <;> simp [cryptInstr], _, rfl⟩

theorem witness_SetupOrderIrrelevant :
    let s := State.reset
    ∃ t u, exec (.setKey aKey) s = .next t ∧ t.answers = s.answers ++ [⟨.ok, []⟩] ∧
      exec (.setIv (zeros Config.params.blockSize)) t = .next u ∧ u.answers = t.answers ++ [⟨.ok, []⟩] := by
  have h1 : exec (.setKey aKey) State.reset = .next ({ State.reset with
      key := aKey, keyLen := aKey.length, keySet := true, changed := true }.answer .ok []) := by
    apply exec_of_ok
    simp [commandResult, setKeyCmd, acceptsKeyLength, aKey_supported, State.reset]
  have h2 : ∀ s, exec (.setIv (zeros Config.params.blockSize)) s = .next ((resetStreams Config.params { s with
      ivCfg := zeros Config.params.blockSize, ivSet := true }).answer .ok []) := fun s =>
    exec_of_ok (by simp [commandResult, setIvCmd])
  exact ⟨_, _, h1, rfl, h2 _, rfl⟩

/-- Each clause of the configuration checks, the earlier ones passing: no mode, no key, a key that is not as long as
`KEY_LEN`, and in each IV mode no IV. -/
theorem witness_ConfigurationErrorExactly :
    Instr.encrypt [] = cryptInstr .enc [] ∧ State.reset.modeValid = false ∧
    (let s := { aState .ecb true true true with key := [], keySet := false }
     s.modeValid = true ∧ s.keySet = false) ∧
    (let s := { aState .ecb true true true with keyLen := aKey.length + 1 }
     s.modeValid = true ∧ s.keySet = true ∧ s.key.length ≠ s.keyLen) ∧
    (∀ m ∈ [Mode.cbc, .cfb, .cfb8, .ofb, .ctr],
      let s := { aState m true true true with ivSet := false }
      s.modeValid = true ∧ s.keySet = true ∧ s.key.length = s.keyLen ∧ s.mode ∈ [Mode.cbc, .cfb, .cfb8, .ofb, .ctr] ∧
        s.ivSet = false ∧ exec (.encrypt []) s = .next (raise .configurationError s)) := by
  refine ⟨rfl, rfl, ⟨rfl, rfl⟩, ⟨rfl, rfl, by simp [aState]⟩, fun m hm => ⟨rfl, rfl, rfl, hm, rfl, ?_⟩⟩
  apply exec_of_error
  show crypt _ .enc [] _ = _
  fin_cases hm <;> simp [crypt, cryptCheck, checkMode, checkKey, checkIv, aState, usesIv]

/-- Each clause: a key length and a length that are not supported, a wrong IV length, and data that is no multiple of `B` in
ECB and in CBC. One byte is no multiple of `B` when `B > 1`, as with the fixture's `B = 4`; with `B = 1` no data is
refused. -/
theorem witness_LengthErrorExactly :
    (zeros 65536).length ∉ Config.params.keyLengths ∧ 65536 ∉ Config.params.keyLengths ∧
    ([] : ByteString).length ≠ Config.params.blockSize ∧
    (∀ m ∈ [Mode.ecb, .cbc], ∀ d, 1 < Config.params.blockSize →
      Ready (aState m false true true) ∧ ¬ LengthOk Config.params d [1] (aState m false true true)) ∧
    (∀ m ∈ [Mode.ecb, .cbc], ∀ d, ¬ LengthOk t1 d [1] (atRest m [0, 0, 0, 0] false) ∧
      runs t1 d [1] (atRest m [0, 0, 0, 0] false) = (.error .lengthError, [])) := by
  refine ⟨witness_SetKeyEffect.2.1, witness_SetKeylenEffect.2, (Nat.ne_of_lt Config.params.blockSize_pos), ?_, ?_⟩
  · refine fun m hm d hB => ⟨aState_ready _ _ _ _, fun h => ?_⟩
    have := h (by simpa [aState] using hm) (.inr rfl)
    simp [Nat.mod_eq_of_lt hB] at this
  · intro m hm d
    refine ⟨fun h => absurd (h (by simpa [atRest, configured] using hm) (.inr rfl)) (by decide), ?_⟩
    fin_cases hm <;> cases d <;> decide

/-- DECRYPT in ECB of one block under `E`, with `PAD_EN = 0`: it gives the block back. -/
theorem decrypt_block_ok {y : ByteString} (hy : y.length = Config.params.blockSize) :
    ∃ t, exec (.decrypt (Config.params.encryptBlock aKey y)) { aState .ecb true true true with padEn := false } = .next t ∧
      t.answers = (aState .ecb true true true).answers ++ [⟨.ok, y⟩] := by
  have hc := Config.params.encryptBlock_length aKey _ hy
  have hb : blocks Config.params.blockSize (Config.params.encryptBlock aKey y) = [Config.params.encryptBlock aKey y] := by
    simpa [blocks_nil] using blocks_cons Config.params.blockSize_pos hc (s := [])
  refine ⟨_, exec_crypt_of (d := .dec) (w := Stream.reset) ⟨rfl, rfl, rfl, fun _ => rfl⟩
    (fun _ _ => by rw [hc, Nat.mod_self]) ?_, rfl⟩
  have hd := Config.params.decrypt_encrypt aKey _ aKey_supported hy
  show modeFn _ (aState .ecb false true true) .dec _ (startStream _ .dec (aState .ecb false true true)) = _
  rw [aState_start]
  simp [modeFn, aState, ecbDec, unpadIfEnabled, hb, hd]

/-- Each clause: the empty string; a last byte 0; a last byte above `B`, which some byte is when `B < 255`. Then EB8 and EB7
of 95_test_vectors.md, with the fixture's `B = 4`. -/
theorem witness_PaddingErrorExactly :
    exec (.decrypt []) (aState .ecb true true true) = .next (raise .paddingError (aState .ecb true true true)) ∧
    (let y := zeros Config.params.blockSize
     y.getLast? = some 0 ∧
     ∃ t, exec (.decrypt (Config.params.encryptBlock aKey y)) { aState .ecb true true true with padEn := false } = .next t ∧
       t.answers = (aState .ecb true true true).answers ++ [⟨.ok, y⟩]) ∧
    (Config.params.blockSize < 255 →
     let n : Byte := BitVec.ofNat 8 (Config.params.blockSize + 1)
     let y := List.replicate Config.params.blockSize n
     y.getLast? = some n ∧ n.toNat > Config.params.blockSize ∧
     ∃ t, exec (.decrypt (Config.params.encryptBlock aKey y)) { aState .ecb true true true with padEn := false } = .next t ∧
       t.answers = (aState .ecb true true true).answers ++ [⟨.ok, y⟩]) ∧
    (runs t1 .dec [1, 2, 3, 4] (atRest .ecb [0, 0, 0, 0] true) = (.error .paddingError, []) ∧
      runs t1 .dec [1, 2, 3, 12] (atRest .ecb [0, 0, 0, 0] true) = (.error .paddingError, [])) := by
  have hB := Nat.ne_of_gt Config.params.blockSize_pos
  refine ⟨?_, ⟨by simp [zeros, List.getLast?_replicate, hB], decrypt_block_ok (by simp)⟩,
    fun h => ⟨by simp [List.getLast?_replicate, hB], ?_, decrypt_block_ok (by simp)⟩, by decide⟩
  · apply exec_of_error
    show crypt _ .dec [] _ = _
    rw [crypt_of_ready (aState_ready _ _ _ _) (lengthOk_nil _ _), cryptBody_eq]
    simp [modeFn, ecbDec, unpadIfEnabled, unpad, aState, blocks_nil]
  · simp; omega

theorem witness_IllegalCommandOnlyByDecode :
    let s := { State.reset with pending := [⟨0x00008001, []⟩] }
    ∃ t, s.pending = ⟨0x00008001, []⟩ :: [] ∧ step s = .next t ∧ (0x00008001 : Word).extractLsb' 11 5 ≠ 0 :=
  ⟨_, rfl, rfl, by decide⟩

/-- A data command that answers OK, with the setup due and without. -/
theorem witness_LazySetupEffect :
    ∀ changed, ∃ t out, exec (cryptInstr .enc []) (aState aMode true false changed) = .next t ∧
      t.answers = (aState aMode true false changed).answers ++ [⟨.ok, out⟩] :=
  fun changed => encrypt_nil_ok (aState_ready aMode true false changed)

theorem witness_CryptFrame :
    ∃ t, exec (cryptInstr .dec []) (aState aMode true false false) = .next t ∧
      (aState aMode true false false).cbEn = false ∧ (aState aMode true false false).changed = false :=
  ⟨_, exec_cryptInstr _ _ _, rfl, rfl⟩

theorem witness_CryptCompletesWhenReady :
    Ready (aState .cbc false true true) ∧ LengthOk Config.params .dec [] (aState .cbc false true true) ∧
      (aState .cbc false true true).padEn = false := ⟨aState_ready _ _ _ _, lengthOk_nil _ _, rfl⟩

/-- One block that decrypts to a whole pad block, which `Unpad` accepts. -/
theorem witness_PaddedDecryptUnpads :
    let s := aState .ecb true true true
    (s.mode = .ecb ∧ s.padEn = true) ∧ unpad Config.params (pad Config.params []) = .ok [] ∧
    ∃ t, exec (.decrypt (Config.params.encryptBlock aKey (pad Config.params []))) { s with padEn := false } = .next t ∧
      t.answers = s.answers ++ [⟨.ok, pad Config.params []⟩] := by
  refine ⟨⟨rfl, rfl⟩, ?_, decrypt_block_ok (by simp [pad, padCount])⟩
  have h1 := Config.params.blockSize_pos
  have h2 := Config.params.blockSize_le
  have h3 : Config.params.blockSize % 256 = Config.params.blockSize := Nat.mod_eq_of_lt (by omega)
  simp [pad, padCount, unpad, List.getLast?_replicate, Nat.ne_of_gt h1, h3]

/-- With the setup due and without, while buffering is continuous. -/
theorem witness_EcbEncryptsBlocks :
    ∀ changed, Ready (aState .ecb true true changed) ∧ (aState .ecb true true changed).mode = .ecb ∧
      LengthOk Config.params .enc [1] (aState .ecb true true changed) ∧
      (aState .ecb true true changed).changed = changed :=
  fun _ => ⟨aState_ready _ _ _ _, rfl, lengthOk_padded _ _ _ _, rfl⟩

/-- With the setup due and without, while buffering is continuous. -/
theorem witness_EcbDecryptsBlocks :
    ∀ changed, Ready (aState .ecb false true changed) ∧ (aState .ecb false true changed).mode = .ecb ∧
      (zeros Config.params.blockSize).length % Config.params.blockSize = 0 ∧
      (aState .ecb false true changed).changed = changed :=
  fun _ => ⟨aState_ready _ _ _ _, rfl, by simp, rfl⟩

theorem witness_CbcEncryptChains :
    Ready (aState .cbc true true false) ∧ (aState .cbc true true false).mode = .cbc ∧
      LengthOk Config.params .enc [1] (aState .cbc true true false) ∧
      (startStream Config.params .enc (aState .cbc true true false)).iv.length = Config.params.blockSize :=
  ⟨aState_ready _ _ _ _, rfl, lengthOk_padded _ _ _ _, by
    rw [aState_start]; exact reset_shape.iv_length⟩

theorem witness_CbcDecryptChains :
    Ready (aState .cbc true true false) ∧ (aState .cbc true true false).mode = .cbc ∧
      (zeros Config.params.blockSize).length % Config.params.blockSize = 0 ∧
      (startStream Config.params .dec (aState .cbc true true false)).iv.length = Config.params.blockSize :=
  ⟨aState_ready _ _ _ _, rfl, by simp, by rw [aState_start]; exact reset_shape.iv_length⟩

/-- With the setup due and without, and an answer OK. -/
theorem witness_EcbIgnoresIv :
    ∀ changed, (aState .ecb true true changed).mode = .ecb ∧
      SameButIv (aState .ecb true true changed) (aState .ecb true false changed) ∧
      (aState .ecb true true changed).changed = changed ∧
      ∃ t out, exec (cryptInstr .enc []) (aState .ecb true true changed) = .next t ∧
        t.answers = (aState .ecb true true changed).answers ++ [⟨.ok, out⟩] :=
  fun _ => ⟨rfl, rfl, rfl, encrypt_nil_ok (aState_ready _ _ _ _)⟩

/-- From the start of a block; with `B > 1` a start inside a block too. -/
theorem witness_CfbFeedsBackCiphertext :
    Ready (aState .cfb true true false) ∧ (aState .cfb true true false).mode = .cfb ∧
      StreamShape Config.params (startStream Config.params .dec (aState .cfb true true false)) ∧
      (1 < Config.params.blockSize →
        StreamShape Config.params
          (startStream Config.params .dec { aState .cfb true true false with dec := { Stream.reset with pos := 1 } })) :=
  ⟨aState_ready _ _ _ _, rfl, by rw [aState_start]; exact reset_shape,
    fun h => ⟨reset_shape.iv_length, reset_shape.ks_length, h⟩⟩

theorem witness_Cfb8SlidesWindow :
    Ready (aState .cfb8 true true false) ∧ (aState .cfb8 true true false).mode = .cfb8 ∧
      (startStream Config.params .enc (aState .cfb8 true true false)).iv.length = Config.params.blockSize :=
  ⟨aState_ready _ _ _ _, rfl, by rw [aState_start]; exact reset_shape.iv_length⟩

theorem witness_OfbIteratesCipher :
    Ready (aState .ofb true true true) ∧ (aState .ofb true true true).mode = .ofb ∧
      StreamShape Config.params (startStream Config.params .enc (aState .ofb true true true)) :=
  ⟨aState_ready _ _ _ _, rfl, by rw [aState_start]; exact reset_shape⟩

theorem witness_CtrCountsBlocks :
    Ready (aState .ctr true true true) ∧ (aState .ctr true true true).mode = .ctr ∧
      StreamShape Config.params (startStream Config.params .dec (aState .ctr true true true)) :=
  ⟨aState_ready _ _ _ _, rfl, by rw [aState_start]; exact reset_shape⟩

theorem witness_CounterIncrementWraps :
    (List.replicate Config.params.blockSize (255 : Byte)).length = Config.params.blockSize := by simp

theorem witness_StreamModePassesThrough :
    Ready (aState .stream true true true) ∧ (aState .stream true true true).mode = .stream ∧
      (aState .stream true true true).cbEn = true := ⟨aState_ready _ _ _ _, rfl, rfl⟩

theorem witness_OutputDependsOnPrefix :
    Ready (aState .cfb true true false) ∧ (aState .cfb true true false).mode ∈ [Mode.cfb, .cfb8, .ofb, .ctr] :=
  ⟨aState_ready _ _ _ _, by simp [aState]⟩

theorem witness_FeedbackModesIgnorePadding :
    (aState .stream true true false).mode ∈ [Mode.cfb, .cfb8, .ofb, .ctr, .stream] := by simp [aState]

/-- Two sets of parameters that agree on `E(KEY, b)` and `D(KEY, b)` and have different stream primitives, and a stream. -/
theorem witness_ModesCallTheirPrimitive :
    let Q : Params := { t1 with
      streamXform := fun _ s data => (data, s)
      streamXform_length := fun _ _ _ => rfl
      stream_decrypt_encrypt := fun _ _ => rfl }
    t1.blockSize = Q.blockSize ∧ StreamShape t1 ⟨zeros 4, zeros 4, 3, none⟩ ∧
      (∀ b, t1.encryptBlock keyK b = Q.encryptBlock keyK b) ∧
      (∀ b, t1.decryptBlock keyK b = Q.decryptBlock keyK b) ∧ t1.streamInit = Q.streamInit :=
  ⟨rfl, ⟨rfl, rfl, by decide⟩, fun _ => rfl, fun _ => rfl, rfl⟩

/-- The counts 0, 1 and `B`; a count above `B`, with the fixture's `B = 4` (every byte is at most `B` when `B = 255`). -/
theorem witness_UnpadReadsLastByteOnly :
    ((1 : Byte) ≠ 0 ∧ (1 : Byte).toNat ≤ Config.params.blockSize ∧ ([] : ByteString).length + 1 = (1 : Byte).toNat) ∧
    ((BitVec.ofNat 8 Config.params.blockSize).toNat = Config.params.blockSize ∧
      (zeros (Config.params.blockSize - 1)).length + 1 = Config.params.blockSize) ∧
    (5 : Byte).toNat > t1.blockSize := by
  have h1 := Config.params.blockSize_pos
  have h2 := Config.params.blockSize_le
  refine ⟨⟨by decide, h1, rfl⟩, ⟨?_, by simp; omega⟩, by decide⟩
  simp; omega

theorem witness_ConcatenationLaw :
    Ready (aState .cbc false true false) ∧ (aState .cbc false true false).cbEn = true ∧
      (aState .cbc false true false).changed = false ∧ (aState .cbc false true false).padEn = false ∧
      (zeros Config.params.blockSize).length % Config.params.blockSize = 0 ∧
      (aState .ctr false true false).mode ∈ [Mode.cfb, .cfb8, .ofb, .ctr] :=
  ⟨aState_ready _ _ _ _, rfl, rfl, rfl, by simp, by simp [aState]⟩

theorem witness_DecryptUndoesEncrypt :
    Ready (aState .cbc true true false) ∧ (aState .cbc true true false).key.length ∈ Config.params.keyLengths ∧
      startStream Config.params .dec (aState .cbc true true false) =
        startStream Config.params .enc (aState .cbc true true false) ∧
      (startStream Config.params .enc (aState .cbc true true false)).iv.length = Config.params.blockSize ∧
      LengthOk Config.params .enc [1] (aState .cbc true true false) :=
  ⟨aState_ready _ _ _ _, aKey_supported, by rw [aState_start, aState_start], by
    rw [aState_start]; exact reset_shape.iv_length, lengthOk_padded _ _ _ _⟩

theorem witness_AnswersIndependentWhenNotContinuous :
    let s := aState .ctr true false true
    let t := { aState .ctr true false false with enc := { Stream.reset with pos := 1 } }
    Ready s ∧ Ready t ∧ s.cbEn = false ∧ t.cbEn = false ∧ s.mode = t.mode ∧ s.key = t.key ∧ s.ivCfg = t.ivCfg ∧
      s.padEn = t.padEn :=
  ⟨aState_ready _ _ _ _, ⟨rfl, rfl, rfl, fun _ => rfl⟩, rfl, rfl, rfl, rfl, rfl, rfl⟩

theorem witness_DirectionsIndependent :
    Dir.enc ≠ Dir.dec ∧ (aState .ctr true true false).changed = false ∧ (aState .ctr true true true).changed = true :=
  ⟨by decide, rfl, rfl⟩

/-- Each clause: no pad block, one pad block in ECB and in CBC, and STREAM. -/
theorem witness_ZeroLengthData :
    (Ready (aState .cbc false true false) ∧ (aState .cbc false true false).padEn = false) ∧
    (Ready (aState .ecb true true true) ∧ (aState .ecb true true true).mode = .ecb) ∧
    (Ready (aState .cbc true true true) ∧ (aState .cbc true true true).mode = .cbc) ∧
    (Ready (aState .stream true true true) ∧ (aState .stream true true true).mode = .stream) :=
  ⟨⟨aState_ready _ _ _ _, rfl⟩, ⟨aState_ready _ _ _ _, rfl⟩, ⟨aState_ready _ _ _ _, rfl⟩, ⟨aState_ready _ _ _ _, rfl⟩⟩

theorem witness_EngineTransparency :
    SameButBackend (aState .ctr true true false) { aState .ctr true true false with backend := .accelerated, draws := 7 } :=
  rfl

/-- Each selection point: CB_ENABLE, CB_DISABLE, and a data command with the setup due. -/
theorem witness_BackendWrittenAtSelectionPoints :
    (∃ t, exec .cbEnable (aState aMode true false true) = .next t ∧ (aState aMode true false true).cbEn = false) ∧
    (∃ t, exec .cbDisable (aState aMode true true false) = .next t ∧ (aState aMode true true false).cbEn = true) ∧
    (∃ t out, exec (cryptInstr .enc []) (aState aMode true true true) = .next t ∧
      t.answers = (aState aMode true true true).answers ++ [⟨.ok, out⟩] ∧ (aState aMode true true true).changed = true) :=
  ⟨⟨_, rfl, rfl⟩, ⟨_, rfl, rfl⟩, by
    obtain ⟨t, out, h1, h2⟩ := encrypt_nil_ok (aState_ready aMode true true true)
    exact ⟨t, out, h1, h2, rfl⟩⟩

end Sys2Proof.Tests
end

section
/-! PROOFS. R53: while `CB_EN = 0` both streams are at rest between commands. A stream leaves rest only by the write-back of
a data command, which writes only with `CB_EN = 1`; whatever changes `IV_CFG` or clears `CB_EN` restarts both streams. -/

namespace Sys2Proof.Proofs

open Sys2Proof.Machine Sys2Proof.Safety

/-- `Fresh()` is at rest (10_state.md R52, R53). -/
theorem fresh_atRest (P : Params) (s : State) : AtRest s.ivCfg (fresh P s) := ⟨rfl, rfl, rfl⟩

/-- With `CB_EN = 1` the invariant asks nothing. -/
theorem restInv_of_cbEn {s : State} (h : s.cbEn = true) : RestInv s := fun hoff => by simp [h] at hoff

/-- The invariant reads `CB_EN`, `IV_CFG` and the streams, and no other register. -/
theorem restInv_congr {s t : State} (hcb : t.cbEn = s.cbEn) (hiv : t.ivCfg = s.ivCfg) (henc : t.enc = s.enc)
    (hdec : t.dec = s.dec) (hs : RestInv s) : RestInv t := by
  unfold RestInv
  rw [hcb, hiv, henc, hdec]
  exact hs

theorem restInv_resetStreams (P : Params) (s : State) : RestInv (resetStreams P s) :=
  fun _ => ⟨fresh_atRest P s, fresh_atRest P s⟩

theorem restInv_reset : RestInv State.reset := fun _ => ⟨⟨rfl, rfl, rfl⟩, ⟨rfl, rfl, rfl⟩⟩

theorem restInv_drawBackend {P : Params} {s : State} (hs : RestInv s) : RestInv (drawBackend P s) :=
  restInv_congr rfl rfl rfl rfl hs

theorem restInv_answer {s : State} (status : Status) (out : ByteString) (hs : RestInv s) :
    RestInv (s.answer status out) :=
  restInv_congr rfl rfl rfl rfl hs

/-- The setup restarts both streams, so it needs nothing of the state before it (R138). -/
theorem restInv_setup (P : Params) (s : State) : RestInv (setup P s) :=
  fun _ => ⟨fresh_atRest P s, fresh_atRest P s⟩

theorem restInv_lazySetup {P : Params} {s : State} (hs : RestInv s) : RestInv (lazySetup P s) := by
  unfold lazySetup
  split
  · exact restInv_setup P s
  · exact hs

/-- The write-back moves a stream only while the invariant asks nothing of it (R140). -/
theorem restInv_writeBack {s : State} (d : Dir) (w : Stream) (hs : RestInv s) : RestInv (writeBack d w s) := by
  cases hcb : s.cbEn with
  | true =>
    rw [writeBack_on hcb]
    exact restInv_of_cbEn (by rw [setStream_cbEn, hcb])
  | false =>
    rw [writeBack_off hcb]
    exact hs

theorem restInv_crypt {P : Params} {d : Dir} {data out : ByteString} {s s' : State} (hs : RestInv s)
    (h : crypt P d data s = .ok (out, s')) : RestInv s' := by
  obtain ⟨_, _, w, _, rfl⟩ := crypt_ok h
  exact restInv_writeBack d w (restInv_lazySetup hs)

/-- Whatever a command writes, the invariant holds of it. -/
theorem restInv_commandResult {P : Params} {i : Instr} {s s' : State} {out : ByteString} (hs : RestInv s)
    (h : commandResult P i s = .ok (out, s')) : RestInv s' := by
  cases i with
  | setKey k =>
    simp only [commandResult, setKeyCmd] at h
    split at h <;> cases h
    exact restInv_congr rfl rfl rfl rfl hs
  | setMode m =>
    simp only [commandResult, setModeCmd] at h
    split at h <;> cases h
    exact restInv_congr rfl rfl rfl rfl hs
  | setKeylen n =>
    simp only [commandResult, setKeylenCmd] at h
    split at h <;> cases h
    exact restInv_congr rfl rfl rfl rfl hs
  | padEnable => cases h; exact restInv_congr rfl rfl rfl rfl hs
  | padDisable => cases h; exact restInv_congr rfl rfl rfl rfl hs
  | setIv v =>
    simp only [commandResult, setIvCmd] at h
    split at h <;> cases h
    exact restInv_resetStreams P _
  | cbEnable =>
    simp only [commandResult, cbEnableCmd] at h
    split at h <;> cases h
    · exact hs
    · exact restInv_of_cbEn rfl
  | cbDisable =>
    simp only [commandResult, cbDisableCmd] at h
    split at h <;> cases h
    · exact restInv_drawBackend (restInv_resetStreams P _)
    · exact hs
  | encrypt data => exact restInv_crypt hs h
  | decrypt data => exact restInv_crypt hs h

theorem restInv_exec {i : Instr} {s t : State} (hs : RestInv s) (h : exec i s = .next t) : RestInv t := by
  cases hr : commandResult Config.params i s with
  | error e =>
    rw [exec_of_error hr] at h
    cases h
    exact restInv_answer (.error e) [] hs
  | ok p =>
    obtain ⟨out, s'⟩ := p
    rw [exec_of_ok hr] at h
    cases h
    exact restInv_answer .ok out (restInv_commandResult hs hr)

/-- Settles O15: it holds at reset, and by the cases of what a command writes every command keeps it. -/
theorem streamsRestWhenNotContinuous : Obligations.StreamsRestWhenNotContinuous :=
  ⟨restInv_reset, fun _ _ _ => restInv_exec⟩

end Sys2Proof.Proofs
end

section
/-! PROOFS. The decoder as an equivalence (30_encoding.md R108): a command decodes exactly when no check fails, and it is then
the encoding of what it decodes to. A word selects a row of the opcode map by its opcode, which every mask reads whole, so it
selects at most one (R107). -/

namespace Sys2Proof.Proofs

open Sys2Proof.Machine

/-! ### The checks of decode -/

/-- Some check of R108 fails, each check as the rule words it. -/
def FailsDecodeCheck (c : Command) : Prop :=
  c.word.opc ∉ ([0x01, 0x02, 0x03, 0x04, 0x05, 0x06, 0x07, 0x08, 0x10, 0x11] : List (BitVec 8)) ∨
  c.word.rsv ≠ 0 ∨
  (c.word.opc ≠ 0x03 ∧ c.word.modef ≠ 0) ∨
  (c.word.opc ≠ 0x04 ∧ c.word.imm16 ≠ 0) ∨
  (c.word.opc ∈ ([0x03, 0x04, 0x05, 0x06, 0x07, 0x08] : List (BitVec 8)) ∧ c.payload ≠ [])

theorem takesNoPayload_iff (opc : BitVec 8) :
    takesNoPayload opc = true ↔ opc ∈ ([0x03, 0x04, 0x05, 0x06, 0x07, 0x08] : List (BitVec 8)) := by
  simp [takesNoPayload, or_assoc]

/-- An opcode selects no row exactly when it is not assigned (R101, R109). -/
theorem decodeRow_eq_none_iff (c : Command) : decodeRow c = none ↔
    c.word.opc ∉ ([0x01, 0x02, 0x03, 0x04, 0x05, 0x06, 0x07, 0x08, 0x10, 0x11] : List (BitVec 8)) := by
  unfold decodeRow
  split <;> simp_all

theorem decode_of_decodeRow {c : Command} {i : Instr} (hrow : decodeRow c = some i) (h : ¬ FailsDecodeCheck c) :
    decode c = .ok i := by
  obtain ⟨-, hrsv, hmodef, himm, hpay⟩ : _ ∧ _ ∧ _ ∧ _ ∧ _ := by simpa only [FailsDecodeCheck, not_or] using h
  rw [← takesNoPayload_iff] at hpay
  simp only [decode, hrow, if_neg hrsv, if_neg hmodef, if_neg himm, if_neg hpay]

theorem not_failsDecodeCheck_of_decode {c : Command} {i : Instr} (h : decode c = .ok i) : ¬ FailsDecodeCheck c := by
  obtain ⟨hrow, hrsv, hmodef, himm, hpay⟩ := decode_ok h
  rintro (hopc | hbad | ⟨hopc, hbad⟩ | ⟨hopc, hbad⟩ | ⟨hopc, hbad⟩)
  · simp [(decodeRow_eq_none_iff c).2 hopc] at hrow
  · exact hbad hrsv
  · exact hmodef.elim hopc hbad
  · exact himm.elim hopc hbad
  · rw [← takesNoPayload_iff] at hopc
    exact hpay.elim (by simp [hopc]) hbad

/-- A command decodes exactly when no check of R108 fails. -/
theorem decode_isOk_iff (c : Command) : (∃ i, decode c = .ok i) ↔ ¬ FailsDecodeCheck c := by
  refine ⟨fun ⟨_, h⟩ => not_failsDecodeCheck_of_decode h, fun h => ?_⟩
  cases hrow : decodeRow c with
  | none => exact absurd (.inl ((decodeRow_eq_none_iff c).1 hrow)) h
  | some i => exact ⟨i, decode_of_decodeRow hrow h⟩

theorem decode_error_of_failsDecodeCheck {c : Command} (h : FailsDecodeCheck c) : ∃ e, decode c = .error e := by
  cases hd : decode c with
  | error e => exact ⟨e, rfl⟩
  | ok i => exact absurd h (not_failsDecodeCheck_of_decode hd)

/-! ### The row a word selects -/

/-- A command is its payload and the four fields of its word. -/
theorem command_eq_of_fields {c : Command} {imm16 : BitVec 16} {rsv : BitVec 5} {modef : BitVec 3} {opc : BitVec 8}
    {payload : ByteString} (himm : c.word.imm16 = imm16) (hrsv : c.word.rsv = rsv) (hmodef : c.word.modef = modef)
    (hopc : c.word.opc = opc) (hpay : c.payload = payload) : (⟨packWord imm16 rsv modef opc, payload⟩ : Command) = c := by
  subst himm hrsv hmodef hopc hpay
  rw [packWord_fields]

/-- A command that decodes is the encoding of what it decodes to, which is well formed. -/
theorem encode_of_decode {c : Command} {i : Instr} (h : decode c = .ok i) : i.wf = true ∧ encode i = c := by
  obtain ⟨hrow, hrsv, hmodef, himm, hpay⟩ := decode_ok h
  unfold decodeRow at hrow
  split at hrow <;> cases hrow <;> rename_i hopc <;> rw [hopc] at hmodef himm hpay
  case h_3 =>
    exact ⟨rfl, command_eq_of_fields (himm.resolve_left (by decide)) hrsv rfl hopc (hpay.resolve_left (by decide))⟩
  case h_4 =>
    exact ⟨decide_eq_true c.word.imm16.isLt, command_eq_of_fields (by simp) hrsv (hmodef.resolve_left (by decide)) hopc
      (hpay.resolve_left (by decide))⟩
  case h_1 | h_2 | h_9 | h_10 =>
    exact ⟨rfl, command_eq_of_fields (himm.resolve_left (by decide)) hrsv (hmodef.resolve_left (by decide)) hopc rfl⟩
  case h_5 | h_6 | h_7 | h_8 =>
    exact ⟨rfl, command_eq_of_fields (himm.resolve_left (by decide)) hrsv (hmodef.resolve_left (by decide)) hopc
      (hpay.resolve_left (by decide))⟩

/-- The word the encoder writes for a command selects the command's row. -/
theorem encodedWordMatchesRow (i : Instr) : Laws.EncodedWordMatchesRow.Statement i := by
  cases i with
  | setKey key => exact Laws.EncodedWordMatchesRow.setKey key
  | setIv iv => exact Laws.EncodedWordMatchesRow.setIv iv
  | setMode modef => exact Laws.EncodedWordMatchesRow.setMode modef
  | setKeylen n => exact Laws.EncodedWordMatchesRow.setKeylen n
  | cbEnable => exact Laws.EncodedWordMatchesRow.cbEnable
  | cbDisable => exact Laws.EncodedWordMatchesRow.cbDisable
  | padEnable => exact Laws.EncodedWordMatchesRow.padEnable
  | padDisable => exact Laws.EncodedWordMatchesRow.padDisable
  | encrypt data => exact Laws.EncodedWordMatchesRow.encrypt data
  | decrypt data => exact Laws.EncodedWordMatchesRow.decrypt data

theorem row_selects_of_decode {c : Command} {i : Instr} (h : decode c = .ok i) : i.row.selects c.word = true := by
  obtain ⟨hwf, rfl⟩ := encode_of_decode h
  exact (encodedWordMatchesRow i).2 hwf

/-- Every mask reads the whole opcode field, so a word selects a row only if it has the opcode of the row's pattern. -/
theorem opc_of_selects {r : OpcodeRow} {w : Word} (hr : r ∈ opcodeTable) (h : r.selects w = true) :
    w.opc = r.pattern.opc := by
  have hmask : ∀ r ∈ opcodeTable, Word.opc r.mask = BitVec.allOnes 8 := by decide
  calc w.opc = w.opc &&& Word.opc r.mask := by rw [hmask r hr, BitVec.and_allOnes]
    _ = Word.opc (w &&& r.mask) := BitVec.extractLsb'_and.symm
    _ = r.pattern.opc := by rw [beq_iff_eq.1 h]

/-- A word selects at most one row: the patterns of the opcode map have different opcodes. -/
theorem row_eq_of_selects {r q : OpcodeRow} {w : Word} (hr : r ∈ opcodeTable) (hq : q ∈ opcodeTable)
    (hrw : r.selects w = true) (hqw : q.selects w = true) : r = q := by
  have hinj : ∀ r ∈ opcodeTable, ∀ q ∈ opcodeTable, Word.opc r.pattern = Word.opc q.pattern → r = q := by decide
  exact hinj r hr q hq ((opc_of_selects hr hrw).symm.trans (opc_of_selects hq hqw))

/-! ### A step with a command pending -/

theorem step_of_decode_ok {s : State} {c : Command} {rest : List Command} {i : Instr} (hp : s.pending = c :: rest)
    (hd : decode c = .ok i) : step s = exec i { s with pending := rest } := by
  simp only [step, hp, hd]

theorem step_of_decode_error {s : State} {c : Command} {rest : List Command} {e : DecodeError}
    (hp : s.pending = c :: rest) (hd : decode c = .error e) :
    step s = .next (raise .illegalCommand { s with pending := rest }) := by
  simp only [step, hp, hd]

/-- Settles O4: a failing check makes decode an error, which the step raises; otherwise the command is the encoding of what
it decodes to, whose word selects that row, and a word selects at most one row. -/
theorem decodeChecks : Obligations.DecodeChecks := by
  intro c
  refine ⟨fun hbad s rest hp => ?_, fun hgood => ?_⟩
  · obtain ⟨e, he⟩ := decode_error_of_failsDecodeCheck (c := c) hbad
    exact step_of_decode_error hp he
  · obtain ⟨i, hi⟩ := (decode_isOk_iff c).2 hgood
    have hmem := Laws.row_mem_opcodeTable i
    have hsel := row_selects_of_decode hi
    exact ⟨i, hi, hmem, hsel, fun r hr hrsel => row_eq_of_selects hr hmem hrsel hsel⟩

end Sys2Proof.Proofs
end

section
/-! PROOFS. The answer of a step (30_encoding.md R115) and the codes of modes and statuses (R104, 60_exceptions.md R301). -/

namespace Sys2Proof.Proofs

open Sys2Proof.Machine Sys2Proof.Safety

theorem statusCode_le (st : Status) : st.code.toNat ≤ 5 := by
  cases st with
  | ok => decide
  | error e => cases e <;> decide

/-- Only ENCRYPT and DECRYPT have an output (R115). -/
theorem eq_cryptInstr_of_output {P : Params} {i : Instr} {s s' : State} {out : ByteString}
    (h : commandResult P i s = .ok (out, s')) (hout : out ≠ []) : ∃ d data, i = cryptInstr d data := by
  cases i with
  | encrypt data => exact ⟨.enc, data, rfl⟩
  | decrypt data => exact ⟨.dec, data, rfl⟩
  | padEnable => cases h; exact absurd rfl hout
  | padDisable => cases h; exact absurd rfl hout
  | setKey k => simp only [commandResult, setKeyCmd] at h; split at h <;> cases h; exact absurd rfl hout
  | setKeylen n => simp only [commandResult, setKeylenCmd] at h; split at h <;> cases h; exact absurd rfl hout
  | setIv v => simp only [commandResult, setIvCmd] at h; split at h <;> cases h; exact absurd rfl hout
  | setMode m => simp only [commandResult, setModeCmd] at h; split at h <;> cases h; exact absurd rfl hout
  | cbEnable => simp only [commandResult, cbEnableCmd] at h; split at h <;> cases h <;> exact absurd rfl hout
  | cbDisable => simp only [commandResult, cbDisableCmd] at h; split at h <;> cases h <;> exact absurd rfl hout

/-- An answer with an output is the OK of an ENCRYPT or DECRYPT. -/
theorem exec_output {i : Instr} {s t : State} {a : Answer} (h : exec i s = .next t)
    (ha : t.answers = s.answers ++ [a]) (hout : a.out ≠ []) : a.status = .ok ∧ ∃ d data, i = cryptInstr d data := by
  obtain ⟨status, out⟩ := a
  cases status with
  | error e => exact absurd (exec_error h ha).2.2 hout
  | ok =>
    obtain ⟨s', hr, -⟩ := exec_ok h ha
    exact ⟨rfl, eq_cryptInstr_of_output hr hout⟩

/-- Settles O8: a command that does not decode is answered by `raise`, one that decodes by its meaning. -/
theorem everyCommandAnsweredOnce : Obligations.EveryCommandAnsweredOnce := by
  intro s c rest hp
  cases hd : decode c with
  | error e =>
    exact ⟨_, _, step_of_decode_error hp hd, raise_pending _ _, raise_answers _ _, statusCode_le _,
      fun hout => absurd rfl hout⟩
  | ok i =>
    obtain ⟨t, a, ht, ha, hrest⟩ := exec_answers i { s with pending := rest }
    refine ⟨t, a, (step_of_decode_ok hp hd).trans ht, hrest, ha, statusCode_le _, fun hout => ?_⟩
    obtain ⟨hok, d, data, rfl⟩ := exec_output ht ha hout
    exact ⟨hok, d, data, rfl⟩

/-- No primitive supports the reserved code 7 (R104). -/
theorem selectedMode_reserved (P : Params) : selectedMode P 7 = none := rfl

theorem exec_setMode_reserved (s : State) : exec (.setMode 7) s = .next (raise .unsupportedModeError s) :=
  exec_of_error (by simp only [commandResult, setModeCmd, selectedMode_reserved])

/-- Settles O9: the tables by evaluation, the reserved code by the mode it does not select. -/
theorem modeAndStatusCodes : Obligations.ModeAndStatusCodes :=
  ⟨rfl, exec_setMode_reserved, rfl, rfl, rfl, rfl, rfl, rfl, statusCode_le⟩

end Sys2Proof.Proofs
end

section
/-! PROOFS. The answer of a data command as a function of what it reads (40_crypt.md R132, R143), and of which direction's
stream it depends on (R144). -/

namespace Sys2Proof.Proofs

open Sys2Proof.Machine Sys2Proof.Safety

/-! ### The answer -/

/-- The answer of a data command: the error of its checks or of its mode, else the mode's output. It is said in terms of the
state before the setup, as `cryptBody_eq` is. -/
def cryptAnswer (P : Params) (d : Dir) (data : ByteString) (s : State) : Answer :=
  match cryptCheck P d data s with
  | some e => ⟨.error e, []⟩
  | none =>
    match modeFn P s d data (startStream P d s) with
    | .error e => ⟨.error e, []⟩
    | .ok (out, _) => ⟨.ok, out⟩

theorem finish_crypt_answers (P : Params) (d : Dir) (data : ByteString) (s : State) :
    (finish s (crypt P d data s)).answers = s.answers ++ [cryptAnswer P d data s] := by
  unfold crypt cryptAnswer
  cases cryptCheck P d data s with
  | some e => rfl
  | none =>
    simp only [cryptBody_eq]
    cases modeFn P s d data (startStream P d s) with
    | error e => rfl
    | ok p => simp

/-- Every data command goes to a next state, with its answer appended to those before. -/
theorem exec_cryptInstr_answers (d : Dir) (data : ByteString) (s : State) :
    ∃ t, exec (cryptInstr d data) s = .next t ∧ t.answers = s.answers ++ [cryptAnswer Config.params d data s] :=
  ⟨_, exec_cryptInstr d data s, finish_crypt_answers Config.params d data s⟩

/-- The answer depends on the outcome of the checks, on what the mode reads and on where the stream starts. -/
theorem cryptAnswer_congr {P : Params} {d : Dir} {data : ByteString} {s t : State}
    (hc : cryptCheck P d data s = cryptCheck P d data t) (hw : startStream P d s = startStream P d t)
    (hm : s.mode = t.mode) (hk : s.key = t.key) (hp : s.padEn = t.padEn) (hi : s.ivCfg = t.ivCfg) :
    cryptAnswer P d data s = cryptAnswer P d data t := by
  unfold cryptAnswer
  rw [hc, hw, modeFn_congr P d data _ hm hk hp hi]

/-! ### With `CB_EN = 0` -/

/-- Two ready states of one `MODE` and `PAD_EN` pass the checks or fail them alike. -/
theorem cryptCheck_congr_of_ready {P : Params} {d : Dir} {data : ByteString} {s t : State} (hs : Ready s) (ht : Ready t)
    (hm : s.mode = t.mode) (hp : s.padEn = t.padEn) : cryptCheck P d data s = cryptCheck P d data t := by
  have hl : LengthOk P d data s ↔ LengthOk P d data t := by simp only [LengthOk, hm, hp]
  by_cases h : LengthOk P d data s
  · rw [cryptCheck_none_iff.mpr ⟨hs, h⟩, cryptCheck_none_iff.mpr ⟨ht, hl.mp h⟩]
  · rw [cryptCheck_length_iff.mpr ⟨hs, h⟩, cryptCheck_length_iff.mpr ⟨ht, mt hl.mpr h⟩]

/-- With `CB_EN = 0` every data command starts at `Fresh()` (R139). -/
theorem startStream_of_cbEn_off (P : Params) (d : Dir) {s : State} (h : s.cbEn = false) :
    startStream P d s = fresh P s := by
  simp [startStream, h]

/-- Settles O56: both commands start at `Fresh()` of one `IV_CFG`, pass or fail the checks alike and run one mode. -/
theorem answersIndependentWhenNotContinuous : Obligations.AnswersIndependentWhenNotContinuous := by
  intro d data s t hs ht hcs hct hm hk hi hp
  have hw : startStream Config.params d s = startStream Config.params d t := by
    rw [startStream_of_cbEn_off _ d hcs, startStream_of_cbEn_off _ d hct, fresh_congr _ hi]
  have ha := cryptAnswer_congr (cryptCheck_congr_of_ready (data := data) hs ht hm hp) hw hm hk hp hi
  obtain ⟨s', hs', has⟩ := exec_cryptInstr_answers d data s
  obtain ⟨t', ht', hat⟩ := exec_cryptInstr_answers d data t
  exact ⟨s', t', _, hs', ht', has, ha ▸ hat⟩

/-! ### The other direction's stream -/

/-- No check reads a stream. -/
theorem cryptCheck_setStream (P : Params) (d d' : Dir) (data : ByteString) (w : Stream) (s : State) :
    cryptCheck P d data (s.setStream d' w) = cryptCheck P d data s := by
  cases d' <;> rfl

/-- No mode reads a stream but the one it is given. -/
theorem modeFn_setStream (P : Params) (d d' : Dir) (data : ByteString) (v w : Stream) (s : State) :
    modeFn P (s.setStream d' w) d data v = modeFn P s d data v :=
  modeFn_congr P d data v (by simp) (by simp) (by simp) (by simp)

theorem startStream_setStream_ne (P : Params) {d d' : Dir} (w : Stream) (s : State) (hne : d' ≠ d) :
    startStream P d (s.setStream d' w) = startStream P d s := by
  simp [startStream, fresh, stream_setStream_ne s w hne.symm]

/-- The other direction's stream has no influence on the answer (R144). -/
theorem cryptAnswer_setStream_ne (P : Params) {d d' : Dir} (data : ByteString) (w : Stream) (s : State) (hne : d' ≠ d) :
    cryptAnswer P d data (s.setStream d' w) = cryptAnswer P d data s :=
  cryptAnswer_congr (cryptCheck_setStream P d d' data w s) (startStream_setStream_ne P w s hne)
    (by simp) (by simp) (by simp) (by simp)

theorem setStream_comm {d d' : Dir} (v w : Stream) (s : State) (hne : d' ≠ d) :
    (s.setStream d' w).setStream d v = (s.setStream d v).setStream d' w := by
  cases d <;> cases d'
  case enc.enc => exact absurd rfl hne
  case dec.dec => exact absurd rfl hne
  all_goals rfl

theorem answer_setStream (d : Dir) (w : Stream) (s : State) (status : Status) (out : ByteString) :
    (s.setStream d w).answer status out = (s.answer status out).setStream d w := by
  cases d <;> rfl

theorem writeBack_setStream_ne {d d' : Dir} (v w : Stream) (s : State) (hne : d' ≠ d) :
    writeBack d v (s.setStream d' w) = (writeBack d v s).setStream d' w := by
  cases hcb : s.cbEn with
  | true => rw [writeBack_on hcb, writeBack_on (by simpa using hcb), setStream_comm v w s hne]
  | false => rw [writeBack_off hcb, writeBack_off (by simpa using hcb)]

theorem stream_writeBack_ne {d d' : Dir} (v : Stream) (s : State) (hne : d' ≠ d) :
    (writeBack d v s).stream d' = s.stream d' := by
  cases hcb : s.cbEn with
  | true => rw [writeBack_on hcb, stream_setStream_ne s v hne]
  | false => rw [writeBack_off hcb]

/-- With no setup due, a data command ends with the other direction's stream as it was (R144). -/
theorem finish_crypt_stream_ne (P : Params) {d d' : Dir} (data : ByteString) {s : State} (hne : d' ≠ d)
    (hc : s.changed = false) : (finish s (crypt P d data s)).stream d' = s.stream d' := by
  cases hr : crypt P d data s with
  | error e => exact stream_answer s (.error e) [] d'
  | ok p =>
    obtain ⟨out, s'⟩ := p
    obtain ⟨_, _, v, _, rfl⟩ := crypt_ok hr
    rw [finish_ok, stream_answer, stream_writeBack_ne v _ hne, lazySetup_of_unchanged P hc]

/-- With no setup due, another value of the other direction's stream is carried through a data command (R144). -/
theorem finish_crypt_setStream_ne (P : Params) {d d' : Dir} (data : ByteString) (w : Stream) {s : State} (hne : d' ≠ d)
    (hc : s.changed = false) :
    finish (s.setStream d' w) (crypt P d data (s.setStream d' w)) = (finish s (crypt P d data s)).setStream d' w := by
  unfold crypt
  rw [cryptCheck_setStream]
  cases cryptCheck P d data s with
  | some e => exact answer_setStream d' w s (.error e) []
  | none =>
    simp only [cryptBody_eq, modeFn_setStream, startStream_setStream_ne P w s hne, lazySetup_of_unchanged P hc,
      lazySetup_of_unchanged P (s := s.setStream d' w) (by simpa using hc)]
    cases modeFn P s d data (startStream P d s) with
    | error e => exact answer_setStream d' w s (.error e) []
    | ok p => simp only [finish_ok, writeBack_setStream_ne p.2 w s hne, answer_setStream]

/-- Settles O57: with no setup due the other stream passes through unread, and with one due the answer does not read it. -/
theorem directionsIndependent : Obligations.DirectionsIndependent := by
  intro d d' data w s hne
  refine ⟨_, exec_cryptInstr d data s, fun hc => ⟨finish_crypt_stream_ne _ data hne hc, ?_⟩, fun _ a ha => ?_⟩
  · rw [exec_cryptInstr, finish_crypt_setStream_ne _ data w hne hc]
  · obtain ⟨t', ht', hat⟩ := exec_cryptInstr_answers d data (s.setStream d' w)
    refine ⟨t', ht', ?_⟩
    rw [hat, cryptAnswer_setStream_ne _ data w s hne, setStream_answers, ← finish_crypt_answers, ha]

end Sys2Proof.Proofs
end

section
/-! PROOFS. A data command with no data (40_crypt.md R145): one pad block where ECB and CBC pad, `StreamXform` of nothing in
STREAM, and nothing at all elsewhere. -/

namespace Sys2Proof.Proofs

open Sys2Proof.Machine Sys2Proof.Safety

/-- The empty string passes the length check. -/
theorem lengthOk_nil (P : Params) (d : Dir) (s : State) : LengthOk P d [] s := fun _ _ => Nat.zero_mod _

/-- One block is its own list of blocks. -/
theorem blocks_single {n : Nat} (hn : 0 < n) {b : ByteString} (hb : b.length = n) : blocks n b = [b] := by
  have h := blocks_cons hn (s := []) hb
  rwa [List.append_nil, blocks_nil] at h

/-- `Pad([])` is one whole block of the byte `B` (43_padding.md R211). -/
theorem pad_nil (P : Params) : pad P [] = List.replicate P.blockSize (BitVec.ofNat 8 P.blockSize) := by
  simp [pad, padCount]

theorem blocks_pad_nil (P : Params) :
    blocks P.blockSize (pad P []) = [List.replicate P.blockSize (BitVec.ofNat 8 P.blockSize)] := by
  rw [pad_nil]
  exact blocks_single P.blockSize_pos List.length_replicate

/-- `Unpad([])` has no last byte to read (43_padding.md R212). -/
theorem unpad_nil (P : Params) : unpad P [] = .error .paddingError := rfl

theorem streamState_eq_getD (P : Params) (key ivCfg : ByteString) (w : Stream) :
    streamState P key ivCfg w = w.sst.getD (P.streamInit key ivCfg) := by
  unfold streamState
  cases w.sst <;> rfl

/-- Where nothing is padded, a mode other than STREAM makes nothing of no data and leaves its stream. -/
theorem modeFn_nil {P : Params} {s : State} (d : Dir) (w : Stream) (hp : s.mode ∈ [Mode.ecb, .cbc] → s.padEn = false)
    (hm : s.mode ≠ .stream) : modeFn P s d [] w = .ok ([], w) := by
  unfold modeFn
  cases hmode : s.mode with
  | ecb => cases d <;> simp [ecbEnc, ecbDec, padIfEnabled, unpadIfEnabled, blocks_nil, hp (by simp [hmode])]
  | cbc =>
    cases d <;> simp [cbcEnc, cbcDec, cbcEncLoop, cbcDecLoop, padIfEnabled, unpadIfEnabled, blocks_nil,
      hp (by simp [hmode])]
  | cfb => cases d <;> rfl
  | cfb8 => cases d <;> rfl
  | ofb => rfl
  | ctr => rfl
  | stream => exact absurd hmode hm

/-- ECB ENCRYPT of no data with padding: `E` of the pad block. -/
theorem modeFn_nil_ecb_enc {P : Params} {s : State} (w : Stream) (hm : s.mode = .ecb) (hp : s.padEn = true) :
    modeFn P s .enc [] w =
      .ok (P.encryptBlock s.key (List.replicate P.blockSize (BitVec.ofNat 8 P.blockSize)), w) := by
  simp [modeFn, hm, hp, ecbEnc, padIfEnabled, blocks_pad_nil]

/-- CBC ENCRYPT of no data with padding: `E` of the pad block under the chaining value, which becomes the next one. -/
theorem modeFn_nil_cbc_enc {P : Params} {s : State} (w : Stream) (hm : s.mode = .cbc) (hp : s.padEn = true) :
    let c := P.encryptBlock s.key (xorBytes (List.replicate P.blockSize (BitVec.ofNat 8 P.blockSize)) w.iv)
    modeFn P s .enc [] w = .ok (c, { w with iv := c }) := by
  simp [modeFn, hm, hp, cbcEnc, cbcEncLoop, padIfEnabled, blocks_pad_nil]

/-- ECB and CBC DECRYPT of no data with padding: `Unpad` of nothing. -/
theorem modeFn_nil_dec {P : Params} {s : State} (w : Stream) (hm : s.mode ∈ [Mode.ecb, .cbc]) (hp : s.padEn = true) :
    modeFn P s .dec [] w = .error .paddingError := by
  obtain hm | hm : s.mode = .ecb ∨ s.mode = .cbc := by simpa using hm
  · simp [modeFn, hm, hp, ecbDec, unpadIfEnabled, blocks_nil, unpad_nil]
  · simp [modeFn, hm, hp, cbcDec, cbcDecLoop, unpadIfEnabled, blocks_nil, unpad_nil]

/-- STREAM hands its data to `StreamXform`, from its stream state or a new one (42_feedback_modes.md R190, R191). -/
theorem modeFn_stream {P : Params} {s : State} (d : Dir) (data : ByteString) (w : Stream) (hm : s.mode = .stream) :
    let r := P.streamXform d (w.sst.getD (P.streamInit s.key s.ivCfg)) data
    modeFn P s d data w = .ok (r.1, { w with sst := some r.2 }) := by
  simp [modeFn, hm, streamMode, streamState_eq_getD]

/-- Writing back the working stream itself changes nothing but by the setup. -/
theorem writeBack_startStream (P : Params) (d : Dir) (s : State) :
    writeBack d (startStream P d s) (lazySetup P s) = lazySetup P s := by
  rw [← workingStream_lazySetup]
  unfold writeBack workingStream
  split <;> simp

/-- A data command whose checks pass and whose mode fails raises the mode's error. -/
theorem exec_crypt_of_error {d : Dir} {data : ByteString} {s : State} {e : ErrorKind} (hr : Ready s)
    (hl : LengthOk Config.params d data s)
    (he : modeFn Config.params s d data (startStream Config.params d s) = .error e) :
    exec (cryptInstr d data) s = .next (raise e s) :=
  exec_of_error (by rw [commandResult_cryptInstr, crypt_of_ready hr hl, cryptBody_eq, he])

/-- Settles O58: each clause is the mode's result on no data, answered and written back. -/
theorem zeroLengthData : Obligations.ZeroLengthData := by
  intro d s hr P w padBlock
  have hl := lengthOk_nil P d s
  refine ⟨fun hp hm => ?_, fun hp hm hd => ?_, fun hp hm hd => ?_, fun hp hm hd => ?_, fun hm => ?_⟩
  · refine ⟨_, exec_crypt_of hr hl (modeFn_nil d w hp hm), by simp, fun hc => ?_, fun hc => ?_⟩
    · rw [writeBack_startStream, lazySetup_of_unchanged _ hc]
      exact ⟨rfl, rfl⟩
    · rw [writeBack_startStream, lazySetup_of_changed _ hc]
      exact ⟨rfl, rfl⟩
  · subst hd
    exact ⟨_, exec_crypt_of hr hl (modeFn_nil_ecb_enc w hm hp), by simp [P, padBlock]⟩
  · subst hd
    refine ⟨_, exec_crypt_of hr hl (modeFn_nil_cbc_enc w hm hp), by simp [P, padBlock], fun hcb => ?_⟩
    exact congrArg Stream.iv (stream_of_writeBack (d := .enc) hcb)
  · subst hd
    exact exec_crypt_of_error hr hl (modeFn_nil_dec w hm hp)
  · exact ⟨_, exec_crypt_of hr hl (modeFn_stream d [] w hm), by simp [P], fun hcb => by rw [stream_of_writeBack hcb]⟩

end Sys2Proof.Proofs
end

section
/-! PROOFS. The round trip (40_crypt.md R147): in every mode DECRYPT from the start of an ENCRYPT undoes it, and an ENCRYPT
leaves the start of the other direction as it was. -/

namespace Sys2Proof.Proofs

open Sys2Proof.Machine Sys2Proof.Safety

/-! ### The padding unit -/

theorem padCount_pos (P : Params) (len : Nat) : 0 < padCount P len := by
  have := Nat.mod_lt len P.blockSize_pos
  unfold padCount
  omega

theorem padCount_le (P : Params) (len : Nat) : padCount P len ≤ P.blockSize := Nat.sub_le _ _

/-- The padded string is whole blocks (43_padding.md R211). -/
theorem blockSize_dvd_pad_length (P : Params) (x : ByteString) : P.blockSize ∣ (pad P x).length := by
  refine ⟨x.length / P.blockSize + 1, ?_⟩
  have := Nat.mod_lt x.length P.blockSize_pos
  have := Nat.div_add_mod x.length P.blockSize
  simp only [pad, padCount, List.length_append, List.length_replicate, Nat.mul_add]
  omega

theorem getLast?_pad (P : Params) (x : ByteString) :
    (pad P x).getLast? = some (BitVec.ofNat 8 (padCount P x.length)) := by
  have hn := padCount_pos P x.length
  simp [pad, List.getLast?_append, List.getLast?_replicate, hn.ne']

/-- `Unpad(Pad(x)) = x`: the last byte is the count, which is in `1..B` (43_padding.md R216). -/
theorem unpad_pad (P : Params) (x : ByteString) : unpad P (pad P x) = .ok x := by
  have hpos := padCount_pos P x.length
  have hle := padCount_le P x.length
  have hcount : (BitVec.ofNat 8 (padCount P x.length)).toNat = padCount P x.length := by
    have := P.blockSize_le
    rw [BitVec.toNat_ofNat]
    exact Nat.mod_eq_of_lt (by omega)
  simp only [unpad, getLast?_pad, hcount]
  rw [if_neg (by omega)]
  simp [pad]

/-- What `Pad` or its bypass gives, `Unpad` or its bypass takes back (43_padding.md R210, R216). -/
theorem unpadIfEnabled_padIfEnabled (P : Params) (padEn : Bool) (x : ByteString) :
    unpadIfEnabled P padEn (padIfEnabled P padEn x) = .ok x := by
  cases padEn with
  | true => exact unpad_pad P x
  | false => rfl

/-- What ENCRYPT cuts into blocks in ECB and CBC is whole blocks. -/
theorem blockSize_dvd_padIfEnabled_length {P : Params} {s : State} {data : ByteString}
    (hm : s.mode = .ecb ∨ s.mode = .cbc) (hl : LengthOk P .enc data s) :
    P.blockSize ∣ (padIfEnabled P s.padEn data).length := by
  cases hp : s.padEn with
  | true => exact blockSize_dvd_pad_length P data
  | false => exact Nat.dvd_of_mod_eq_zero (hl hm (.inr hp))

/-! ### The block loops -/

/-- A string of whole blocks is its blocks joined. -/
theorem flatten_blocks {n : Nat} (hn : 0 < n) {s : ByteString} (hs : n ∣ s.length) : (blocks n s).flatten = s := by
  refine whole_blocks_induction (n := n) (motive := fun s => (blocks n s).flatten = s) ?_ ?_ s (Nat.mod_eq_zero_of_dvd hs)
  · rw [blocks_nil, List.flatten_nil]
  · intro b s hb _ ih
    rw [blocks_cons hn hb, List.flatten_cons, ih]

/-- The block under `E`, then under `D`, block by block. -/
theorem decrypt_blocks_encrypt (P : Params) {key : ByteString} (hk : key.length ∈ P.keyLengths) (bs : List ByteString)
    (hbs : ∀ b ∈ bs, b.length = P.blockSize) :
    (blocks P.blockSize (bs.flatMap (P.encryptBlock key))).flatMap (P.decryptBlock key) = bs.flatten := by
  induction bs with
  | nil => simp [blocks_nil]
  | cons b bs ih =>
    obtain ⟨hb, hbs⟩ := List.forall_mem_cons.mp hbs
    rw [List.flatMap_cons, blocks_cons P.blockSize_pos (P.encryptBlock_length key b hb), List.flatMap_cons,
      P.decrypt_encrypt key b hk hb, ih hbs, List.flatten_cons]

theorem blockSize_dvd_flatMap_encrypt_length (P : Params) (key : ByteString) (bs : List ByteString)
    (hbs : ∀ b ∈ bs, b.length = P.blockSize) : P.blockSize ∣ (bs.flatMap (P.encryptBlock key)).length := by
  induction bs with
  | nil => exact Nat.dvd_zero _
  | cons b bs ih =>
    obtain ⟨hb, hbs⟩ := List.forall_mem_cons.mp hbs
    rw [List.flatMap_cons, List.length_append, P.encryptBlock_length key b hb]
    exact (Nat.dvd_add_right (Nat.dvd_refl _)).mpr (ih hbs)

/-- One ciphertext block of CBC is a block. -/
theorem cbc_block_length (P : Params) (key : ByteString) {b c : ByteString} (hb : b.length = P.blockSize)
    (hc : c.length = P.blockSize) : (P.encryptBlock key (xorBytes b c)).length = P.blockSize :=
  P.encryptBlock_length key _ ((xorBytes_length (hb.trans hc.symm)).trans hb)

/-- CBC from one chaining value: the same ciphertext block chains in both directions. -/
theorem cbcDecLoop_blocks_cbcEncLoop (P : Params) {key : ByteString} (hk : key.length ∈ P.keyLengths)
    (bs : List ByteString) (hbs : ∀ b ∈ bs, b.length = P.blockSize) (c : ByteString) (hc : c.length = P.blockSize) :
    (cbcDecLoop P key (blocks P.blockSize (cbcEncLoop P key bs c).1) c).1 = bs.flatten := by
  induction bs generalizing c with
  | nil => simp [cbcEncLoop, blocks_nil, cbcDecLoop]
  | cons b bs ih =>
    obtain ⟨hb, hbs⟩ := List.forall_mem_cons.mp hbs
    have hbc := hb.trans hc.symm
    have hc' := cbc_block_length P key hb hc
    simp only [cbcEncLoop, blocks_cons P.blockSize_pos hc', cbcDecLoop, ih hbs _ hc', List.flatten_cons,
      P.decrypt_encrypt key _ hk ((xorBytes_length hbc).trans hb), xorBytes_cancel hbc]

theorem blockSize_dvd_cbcEncLoop_length (P : Params) (key : ByteString) (bs : List ByteString)
    (hbs : ∀ b ∈ bs, b.length = P.blockSize) (c : ByteString) (hc : c.length = P.blockSize) :
    P.blockSize ∣ (cbcEncLoop P key bs c).1.length := by
  induction bs generalizing c with
  | nil => exact Nat.dvd_zero _
  | cons b bs ih =>
    obtain ⟨hb, hbs⟩ := List.forall_mem_cons.mp hbs
    have hc' := cbc_block_length P key hb hc
    simp only [cbcEncLoop, List.length_append, hc']
    exact (Nat.dvd_add_right (Nat.dvd_refl _)).mpr (ih hbs _ hc')

/-! ### One mode in both directions -/

/-- ECB DECRYPT undoes ECB ENCRYPT of what is whole blocks once padded. -/
theorem ecbDec_ecbEnc (P : Params) {key data : ByteString} {padEn : Bool} (hk : key.length ∈ P.keyLengths)
    (hd : P.blockSize ∣ (padIfEnabled P padEn data).length) :
    ecbDec P key padEn (ecbEnc P key padEn data) = .ok data := by
  unfold ecbDec ecbEnc
  rw [decrypt_blocks_encrypt P hk _ fun _ => length_of_mem_blocks, flatten_blocks P.blockSize_pos hd,
    unpadIfEnabled_padIfEnabled]

/-- CBC DECRYPT undoes CBC ENCRYPT of what is whole blocks once padded, from one chaining value. -/
theorem cbcDec_cbcEnc (P : Params) {key data : ByteString} {padEn : Bool} (w : Stream) (hk : key.length ∈ P.keyLengths)
    (hw : w.iv.length = P.blockSize) (hd : P.blockSize ∣ (padIfEnabled P padEn data).length) :
    ∃ w', cbcDec P key padEn (cbcEnc P key padEn data w).1 w = .ok (data, w') := by
  simp only [cbcDec, cbcEnc]
  rw [cbcDecLoop_blocks_cbcEncLoop P hk _ (fun _ => length_of_mem_blocks) _ hw, flatten_blocks P.blockSize_pos hd,
    unpadIfEnabled_padIfEnabled]
  exact ⟨_, rfl⟩

/-- `forEachByte_undo` for a loop whose output and last state are named. -/
theorem forEachByte_undo_of_eq {f g : Byte → Stream → Byte × Stream} (h : ∀ x w, g (f x w).1 w = (x, (f x w).2))
    {xs ys : ByteString} {w v : Stream} (he : forEachByte f xs w = (ys, v)) : forEachByte g ys w = (xs, v) := by
  have hu := forEachByte_undo h xs w
  rwa [he] at hu

/-- One byte of CFB: both directions feed back the ciphertext byte (42_feedback_modes.md R181, R182). -/
theorem cfbDecByte_cfbEncByte (P : Params) (key : ByteString) (x : Byte) (w : Stream) :
    cfbDecByte P key (cfbEncByte P key x w).1 w = (x, (cfbEncByte P key x w).2) := by
  simp only [cfbDecByte, cfbEncByte, byte_xor_cancel]

/-- One byte of CFB8: the ciphertext byte enters the window in both directions (R183, R184). -/
theorem cfb8DecByte_cfb8EncByte (P : Params) (key : ByteString) (x : Byte) (w : Stream) :
    cfb8DecByte P key (cfb8EncByte P key x w).1 w = (x, (cfb8EncByte P key x w).2) := by
  simp only [cfb8DecByte, cfb8EncByte, byte_xor_cancel]

/-- One byte of OFB: the keystream does not read the data (R185, R186). -/
theorem ofbByte_ofbByte (P : Params) (key : ByteString) (x : Byte) (w : Stream) :
    ofbByte P key (ofbByte P key x w).1 w = (x, (ofbByte P key x w).2) := by
  simp only [ofbByte, byte_xor_cancel]

/-- One byte of CTR: the keystream does not read the data (R187, R188). -/
theorem ctrByte_ctrByte (P : Params) (key : ByteString) (x : Byte) (w : Stream) :
    ctrByte P key (ctrByte P key x w).1 w = (x, (ctrByte P key x w).2) := by
  simp only [ctrByte, byte_xor_cancel]

/-- STREAM from one stream state: the primitive's own law (00_scope.md R11). -/
theorem streamMode_streamMode (P : Params) (key ivCfg data : ByteString) (w : Stream) :
    (streamMode P key ivCfg .dec (streamMode P key ivCfg .enc data w).1 w).1 = data :=
  P.stream_decrypt_encrypt (streamState P key ivCfg w) data

/-- In every mode DECRYPT from the stream an ENCRYPT started at gives back its data. -/
theorem modeFn_dec_modeFn_enc {P : Params} {s : State} {data cipher : ByteString} {w v : Stream}
    (hk : s.key.length ∈ P.keyLengths) (hw : w.iv.length = P.blockSize) (hl : LengthOk P .enc data s)
    (he : modeFn P s .enc data w = .ok (cipher, v)) : ∃ v', modeFn P s .dec cipher w = .ok (data, v') := by
  cases hm : s.mode <;> simp only [modeFn, hm, Except.ok.injEq] at he ⊢
  case ecb =>
    cases he
    exact ⟨w, by rw [ecbDec_ecbEnc P hk (blockSize_dvd_padIfEnabled_length (.inl hm) hl)]⟩
  case cbc =>
    have hcbc := cbcDec_cbcEnc P w hk hw (blockSize_dvd_padIfEnabled_length (.inr hm) hl)
    rwa [he] at hcbc
  case cfb => exact ⟨v, forEachByte_undo_of_eq (cfbDecByte_cfbEncByte P s.key) he⟩
  case cfb8 => exact ⟨v, forEachByte_undo_of_eq (cfb8DecByte_cfb8EncByte P s.key) he⟩
  case ofb => exact ⟨v, forEachByte_undo_of_eq (ofbByte_ofbByte P s.key) he⟩
  case ctr => exact ⟨v, forEachByte_undo_of_eq (ctrByte_ctrByte P s.key) he⟩
  case stream =>
    cases he
    exact ⟨_, Prod.ext (streamMode_streamMode P s.key s.ivCfg data w) rfl⟩

/-- The output of ENCRYPT passes the length check of DECRYPT. -/
theorem lengthOk_dec_of_modeFn_enc {P : Params} {s : State} {data cipher : ByteString} {w v : Stream}
    (hw : w.iv.length = P.blockSize) (he : modeFn P s .enc data w = .ok (cipher, v)) : LengthOk P .dec cipher s := by
  rintro (hm | hm) - <;> simp only [modeFn, hm, Except.ok.injEq] at he <;> apply Nat.mod_eq_zero_of_dvd
  · cases he
    exact blockSize_dvd_flatMap_encrypt_length P s.key _ fun _ => length_of_mem_blocks
  · cases he
    exact blockSize_dvd_cbcEncLoop_length P s.key _ (fun _ => length_of_mem_blocks) w.iv hw

/-- ENCRYPT gives an output in every mode: only a DECRYPT unpads. -/
theorem modeFn_enc_ok (P : Params) (s : State) (data : ByteString) (w : Stream) :
    ∃ cipher v, modeFn P s .enc data w = .ok (cipher, v) := by
  cases h : modeFn P s .enc data w with
  | error e => obtain ⟨-, hd, -⟩ := modeFn_error h; cases hd
  | ok p => exact ⟨p.1, p.2, rfl⟩

/-! ### The state between the two commands -/

/-- The registers that a data command writes: `CHANGED`, `KSCHED`, `BACKEND` and the streams, with the model's own count of
the draws (40_crypt.md R138, R140). -/
theorem writeBack_lazySetup_frame (P : Params) (d : Dir) (v : Stream) (s : State) :
    let t := writeBack d v (lazySetup P s)
    t = { s with
      changed := t.changed, ksched := t.ksched, backend := t.backend, draws := t.draws, enc := t.enc, dec := t.dec } := by
  unfold writeBack lazySetup
  cases d <;> split <;> split <;> rfl

theorem ready_writeBack_lazySetup (P : Params) (d : Dir) (v : Stream) {s : State} (hr : Ready s) :
    Ready (writeBack d v (lazySetup P s)) := by
  rw [writeBack_lazySetup_frame]
  exact ⟨hr.mode, hr.keySet, hr.keyLen, hr.iv⟩

theorem ready_answer {s : State} (status : Status) (out : ByteString) (hr : Ready s) : Ready (s.answer status out) :=
  ⟨hr.mode, hr.keySet, hr.keyLen, hr.iv⟩

theorem lengthOk_writeBack_lazySetup {P : Params} (d d' : Dir) (v : Stream) {data : ByteString} {s : State}
    (hl : LengthOk P d' data s) : LengthOk P d' data (writeBack d v (lazySetup P s)) := by
  rw [writeBack_lazySetup_frame]
  exact hl

theorem modeFn_writeBack_lazySetup (P : Params) (d d' : Dir) (v w : Stream) (data : ByteString) (s : State) :
    modeFn P (writeBack d v (lazySetup P s)) d' data w = modeFn P s d' data w := by
  rw [writeBack_lazySetup_frame]
  exact modeFn_congr P d' data w rfl rfl rfl rfl

@[simp] theorem writeBack_changed (d : Dir) (v : Stream) (s : State) : (writeBack d v s).changed = s.changed := by
  unfold writeBack; split <;> simp
@[simp] theorem writeBack_cbEn (d : Dir) (v : Stream) (s : State) : (writeBack d v s).cbEn = s.cbEn := by
  unfold writeBack; split <;> simp
@[simp] theorem writeBack_ivCfg (d : Dir) (v : Stream) (s : State) : (writeBack d v s).ivCfg = s.ivCfg := by
  unfold writeBack; split <;> simp

/-- A data command leaves the start of the other direction as it was, the setup that it may run included (R138, R144). -/
theorem startStream_writeBack_ne (P : Params) {d d' : Dir} (v : Stream) (s : State) (hne : d' ≠ d) :
    startStream P d' (writeBack d v (lazySetup P s)) = startStream P d' s := by
  rw [← workingStream_lazySetup, ← workingStream_lazySetup, lazySetup_of_unchanged P (by simp)]
  simp [workingStream, fresh, stream_writeBack_ne v _ hne]

/-- Settles O55: ENCRYPT leaves the checks, the mode and the start of DECRYPT as they were, and from that start DECRYPT
undoes it, mode by mode. -/
theorem decryptUndoesEncrypt : Obligations.DecryptUndoesEncrypt := by
  intro plain s hr hk hstart hw hl
  obtain ⟨cipher, v, he⟩ := modeFn_enc_ok Config.params s plain (startStream Config.params .enc s)
  obtain ⟨v', hd⟩ := modeFn_dec_modeFn_enc hk hw hl he
  have hld := lengthOk_dec_of_modeFn_enc hw he
  let s' := writeBack .enc v (lazySetup Config.params s)
  have hd' : modeFn Config.params s' .dec cipher (startStream Config.params .dec s') = .ok (plain, v') := by
    rw [startStream_writeBack_ne _ v s (by decide), hstart, modeFn_writeBack_lazySetup, hd]
  have hr' := ready_answer .ok cipher (ready_writeBack_lazySetup Config.params .enc v hr)
  exact ⟨s'.answer .ok cipher, _, cipher, exec_crypt_of (d := .enc) hr hl he, by simp [s'],
    exec_crypt_of (d := .dec) hr' (lengthOk_writeBack_lazySetup .enc .dec v hld) hd', by simp⟩

end Sys2Proof.Proofs
end

section
/-! PROOFS. The block modes (41_block_modes.md R160 to R165): what the loops of ECB and CBC make of each block, and the
answers and streams of the data commands in these modes. -/

namespace Sys2Proof.Proofs

open Sys2Proof.Machine Sys2Proof.Safety

/-! ### Strings built block by block -/

theorem blockAt_append_zero {n : Nat} {b : ByteString} (s : ByteString) (hb : b.length = n) :
    blockAt n (b ++ s) 0 = b := by
  simp [blockAt, ← hb]

theorem blockAt_append_succ {n : Nat} {b : ByteString} (s : ByteString) (j : Nat) (hb : b.length = n) :
    blockAt n (b ++ s) (j + 1) = blockAt n s j := by
  rw [blockAt, blockAt, Nat.succ_mul, Nat.add_comm, ← List.drop_drop, ← hb, List.drop_left]

/-- `y` is as long as `s`, and its block `j` is `g j` (20_memory.md R72). -/
structure Blockwise (n : Nat) (g : Nat → ByteString) (s y : ByteString) : Prop where
  length : y.length = s.length
  block : ∀ j, j * n < s.length → blockAt n y j = g j

theorem Blockwise.nil (n : Nat) (g : Nat → ByteString) : Blockwise n g [] [] :=
  ⟨rfl, fun _ h => absurd h (Nat.not_lt_zero _)⟩

/-- One block more at the front: it is block 0, and the numbers of the others go up by one. -/
theorem Blockwise.cons {n : Nat} {g : Nat → ByteString} {b c s y : ByteString} (hb : b.length = n) (hc : c.length = n)
    (h0 : c = g 0) (h : Blockwise n (fun j => g (j + 1)) s y) : Blockwise n g (b ++ s) (c ++ y) where
  length := by rw [List.length_append, List.length_append, hb, hc, h.length]
  block
    | 0, _ => (blockAt_append_zero y hc).trans h0
    | j + 1, hj => by
      rw [blockAt_append_succ y j hc]
      rw [List.length_append, hb, Nat.succ_mul] at hj
      exact h.block j (by omega)

/-- A block function applied to each block on its own. -/
theorem blockwise_flatMap_blocks {n : Nat} (hn : 0 < n) {f : ByteString → ByteString}
    (hf : ∀ b, b.length = n → (f b).length = n) (s : ByteString) (hs : s.length % n = 0) :
    Blockwise n (fun j => f (blockAt n s j)) s ((blocks n s).flatMap f) := by
  revert s
  refine whole_blocks_induction ?_ ?_
  · rw [blocks_nil]
    exact .nil n _
  · intro b s hb _ ih
    rw [blocks_cons hn hb, List.flatMap_cons]
    refine .cons hb (hf b hb) (by rw [blockAt_append_zero s hb]) ?_
    simpa only [blockAt_append_succ s _ hb] using ih

/-- The loop of CBC encrypt from the chaining value `c` (41_block_modes.md R162): block `j` of the string `c ++ output` is
what block `j` of the data is chained with. -/
theorem blockwise_cbcEncLoop (P : Params) (key s : ByteString) (hs : s.length % P.blockSize = 0)
    (c : ByteString) (hc : c.length = P.blockSize) :
    let out := (cbcEncLoop P key (blocks P.blockSize s) c).1
    Blockwise P.blockSize
      (fun j => P.encryptBlock key (xorBytes (blockAt P.blockSize s j) (blockAt P.blockSize (c ++ out) j))) s out := by
  revert s c
  refine whole_blocks_induction ?_ ?_
  · intro c _
    rw [blocks_nil]
    exact .nil _ _
  · intro b s hb _ ih c hc
    have hc1 := cbc_block_length P key hb hc
    simp only [blocks_cons P.blockSize_pos hb, cbcEncLoop]
    refine .cons hb hc1 (by rw [blockAt_append_zero s hb, blockAt_append_zero _ hc]) ?_
    simpa only [blockAt_append_succ _ _ hb, blockAt_append_succ _ _ hc] using ih _ hc1

/-- The loop of CBC encrypt ends with the last block of the string `c ++ output` (41_block_modes.md R162). -/
theorem cbcEncLoop_last (P : Params) (key : ByteString) (bs : List ByteString) (hbs : ∀ b ∈ bs, b.length = P.blockSize)
    (c : ByteString) (hc : c.length = P.blockSize) :
    (cbcEncLoop P key bs c).2 = (c ++ (cbcEncLoop P key bs c).1).drop (cbcEncLoop P key bs c).1.length := by
  induction bs generalizing c with
  | nil => simp [cbcEncLoop]
  | cons b bs ih =>
    obtain ⟨hb, hbs⟩ := List.forall_mem_cons.mp hbs
    have hc1 := cbc_block_length P key hb hc
    simp only [cbcEncLoop, List.length_append, hc1.trans hc.symm, ← List.drop_drop, List.drop_left]
    exact ih hbs _ hc1

/-- The loop of CBC decrypt from the chaining value `c` (41_block_modes.md R163): block `j` of the string `c ++ data` is
what block `j` of the data is chained with. -/
theorem blockwise_cbcDecLoop (P : Params) (key s : ByteString) (hs : s.length % P.blockSize = 0)
    (c : ByteString) (hc : c.length = P.blockSize) :
    Blockwise P.blockSize
      (fun j => xorBytes (P.decryptBlock key (blockAt P.blockSize s j)) (blockAt P.blockSize (c ++ s) j)) s
      (cbcDecLoop P key (blocks P.blockSize s) c).1 := by
  revert s c
  refine whole_blocks_induction ?_ ?_
  · intro c _
    rw [blocks_nil]
    exact .nil _ _
  · intro b s hb _ ih c hc
    have hd := P.decryptBlock_length key b hb
    simp only [blocks_cons P.blockSize_pos hb, cbcDecLoop]
    refine .cons hb (by rw [xorBytes_length (hd.trans hc.symm), hd])
      (by rw [blockAt_append_zero s hb, blockAt_append_zero _ hc]) ?_
    simpa only [blockAt_append_succ _ _ hb, blockAt_append_succ _ _ hc] using ih b hb

/-- The loop of CBC decrypt ends with the last block of the string `c ++ data` (41_block_modes.md R163). -/
theorem cbcDecLoop_last (P : Params) (key : ByteString) (bs : List ByteString) (hbs : ∀ b ∈ bs, b.length = P.blockSize)
    (c : ByteString) (hc : c.length = P.blockSize) :
    (cbcDecLoop P key bs c).2 = (c ++ bs.flatten).drop bs.flatten.length := by
  induction bs generalizing c with
  | nil => simp [cbcDecLoop]
  | cons b bs ih =>
    obtain ⟨hb, hbs⟩ := List.forall_mem_cons.mp hbs
    simp only [cbcDecLoop, List.flatten_cons, List.length_append, hb.trans hc.symm, ← List.drop_drop, List.drop_left]
    exact ih hbs b hb

/-! ### The modes as `ModeFn` runs them -/

/-- What ECB makes of its data in direction `d`, which no stream has a part in (41_block_modes.md R160, R161). -/
def ecbResult (P : Params) (s : State) (d : Dir) (data : ByteString) : Except ErrorKind ByteString :=
  match d with
  | .enc => .ok (ecbEnc P s.key s.padEn data)
  | .dec => ecbDec P s.key s.padEn data

/-- In ECB the working stream passes through, unread (41_block_modes.md R165). -/
theorem modeFn_ecb {P : Params} {s : State} (d : Dir) (data : ByteString) (w : Stream) (hm : s.mode = .ecb) :
    modeFn P s d data w = (ecbResult P s d data).map (·, w) := by
  cases d with
  | enc => simp only [modeFn, hm, ecbResult, Except.map]
  | dec =>
    simp only [modeFn, hm, ecbResult]
    cases ecbDec P s.key s.padEn data <;> rfl

theorem modeFn_cbc_enc {P : Params} {s : State} (data : ByteString) (w : Stream) (hm : s.mode = .cbc) :
    let r := cbcEncLoop P s.key (blocks P.blockSize (padIfEnabled P s.padEn data)) w.iv
    modeFn P s .enc data w = .ok (r.1, { w with iv := r.2 }) := by
  simp only [modeFn, hm, cbcEnc]

theorem modeFn_cbc_dec {P : Params} {s : State} (data : ByteString) (w : Stream) (hm : s.mode = .cbc) :
    let r := cbcDecLoop P s.key (blocks P.blockSize data) w.iv
    modeFn P s .dec data w = (unpadIfEnabled P s.padEn r.1).map (·, { w with iv := r.2 }) := by
  simp only [modeFn, hm, cbcDec]
  cases unpadIfEnabled P s.padEn (cbcDecLoop P s.key (blocks P.blockSize data) w.iv).1 <;> rfl

/-! ### The commands -/

/-- The streams after a setup that runs only when it is due (40_crypt.md R138). -/
theorem lazySetup_streams (P : Params) (s : State) :
    (s.changed = false → (lazySetup P s).enc = s.enc ∧ (lazySetup P s).dec = s.dec) ∧
      (s.changed = true → (lazySetup P s).enc = fresh P s ∧ (lazySetup P s).dec = fresh P s) :=
  ⟨fun h => by rw [lazySetup_of_unchanged P h]; exact ⟨rfl, rfl⟩,
    fun h => by rw [lazySetup_of_changed P h]; exact ⟨rfl, rfl⟩⟩

/-- A DECRYPT whose mode ends in `Unpad` of `y`, or its bypass, answers as that does (41_block_modes.md R161, R163). -/
theorem exec_decrypt_of_unpad {data y : ByteString} {s : State} {v : Stream} (hr : Ready s)
    (hl : LengthOk Config.params .dec data s)
    (hmode : modeFn Config.params s .dec data (startStream Config.params .dec s) =
      (unpadIfEnabled Config.params s.padEn y).map (·, v)) :
    (∀ out, unpadIfEnabled Config.params s.padEn y = .ok out →
      exec (.decrypt data) s = .next ((writeBack .dec v (lazySetup Config.params s)).answer .ok out)) ∧
    (∀ e, unpadIfEnabled Config.params s.padEn y = .error e →
      exec (.decrypt data) s = .next (raise .paddingError s)) := by
  refine ⟨fun out hout => ?_, fun e he => ?_⟩
  · rw [hout] at hmode
    exact exec_crypt_of (d := .dec) hr hl hmode
  · rw [he] at hmode
    obtain ⟨rfl, -⟩ := modeFn_error hmode
    exact exec_crypt_of_error (d := .dec) hr hl hmode

/-- Settles O37: block by block by `blockwise_flatMap_blocks`, and the stream that ECB writes back is the one it was given. -/
theorem ecbEncryptsBlocks : Obligations.EcbEncryptsBlocks := by
  intro data s hr hm hl
  have hp := Nat.mod_eq_zero_of_dvd (blockSize_dvd_padIfEnabled_length (.inl hm) hl)
  have hout := blockwise_flatMap_blocks Config.params.blockSize_pos (Config.params.encryptBlock_length s.key) _ hp
  have hrun := exec_crypt_of (d := .enc) hr hl (modeFn_ecb .enc data _ hm)
  rw [writeBack_startStream] at hrun
  exact ⟨_, ecbEnc Config.params s.key s.padEn data, hrun, by simp, hout.length, hout.block,
    lazySetup_streams Config.params s⟩

/-- Settles O38: `y` is the blocks under `D`, and ECB ends in `Unpad` of it. -/
theorem ecbDecryptsBlocks : Obligations.EcbDecryptsBlocks := by
  intro data s hr hm hl B
  have hy := blockwise_flatMap_blocks Config.params.blockSize_pos (Config.params.decryptBlock_length s.key) data hl
  obtain ⟨hok, herr⟩ := exec_decrypt_of_unpad hr (fun _ _ => hl) (modeFn_ecb .dec data _ hm)
  rw [writeBack_startStream] at hok
  exact ⟨_, hy.length, hy.block,
    fun out hout => ⟨_, hok out hout, by simp, lazySetup_streams Config.params s⟩, herr⟩

/-- Settles O39: the blocks and the last chaining value of the loop of CBC encrypt. -/
theorem cbcEncryptChains : Obligations.CbcEncryptChains := by
  intro data s hr hm hl hiv B w p
  have hp := Nat.mod_eq_zero_of_dvd (blockSize_dvd_padIfEnabled_length (.inr hm) hl)
  have hout := blockwise_cbcEncLoop Config.params s.key _ hp w.iv hiv
  have hlast := cbcEncLoop_last Config.params s.key (blocks B (padIfEnabled Config.params s.padEn data))
    (fun _ => length_of_mem_blocks) w.iv hiv
  refine ⟨_, _, exec_crypt_of (d := .enc) hr hl (modeFn_cbc_enc data w hm), by simp, hout.length, hout.block,
    fun hcb => ?_⟩
  rw [← hlast]
  exact stream_of_writeBack (d := .enc) hcb

/-- Settles O40: the blocks and the last chaining value of the loop of CBC decrypt, which ends in `Unpad` of its output. -/
theorem cbcDecryptChains : Obligations.CbcDecryptChains := by
  intro data s hr hm hl hiv B w
  have hy := blockwise_cbcDecLoop Config.params s.key data hl w.iv hiv
  have hlast := cbcDecLoop_last Config.params s.key (blocks B data) (fun _ => length_of_mem_blocks) w.iv hiv
  rw [flatten_blocks Config.params.blockSize_pos (Nat.dvd_of_mod_eq_zero hl)] at hlast
  obtain ⟨hok, herr⟩ := exec_decrypt_of_unpad hr (fun _ _ => hl) (modeFn_cbc_dec data w hm)
  refine ⟨_, hy.length, hy.block, fun out hout => ⟨_, hok out hout, by simp, fun hcb => ?_⟩, herr⟩
  rw [← hlast]
  exact stream_of_writeBack (d := .dec) hcb

/-! ### What ECB does not read -/

/-- ECB consumes no IV, so that `CheckIV()` passes (40_crypt.md R133, R136). -/
theorem checkIv_ecb {s : State} (hm : s.mode = .ecb) : checkIv s = none := by
  simp [checkIv, hm, usesIv]

/-- Neither the checks of an ECB command nor its mode read `IV_CFG`, `IV_SET`, `CB_EN` or a stream (41_block_modes.md
R165). -/
theorem cryptAnswer_ecb_congr {P : Params} {d : Dir} {data : ByteString} {s t : State} (hm : s.mode = .ecb)
    (h : SameButIv s t) : cryptAnswer P d data t = cryptAnswer P d data s := by
  have hmt : t.mode = .ecb := (congrArg State.mode h).trans hm
  have hc : cryptCheck P d data t = cryptCheck P d data s := by
    have hmode : checkMode t = checkMode s := (congrArg checkMode h :)
    have hkey : checkKey t = checkKey s := (congrArg checkKey h :)
    have hlen : checkLength P d data t = checkLength P d data s := (congrArg (checkLength P d data) h :)
    rw [cryptCheck, cryptCheck, hmode, hkey, hlen, checkIv_ecb hm, checkIv_ecb hmt]
  have hr : ecbResult P t d data = ecbResult P s d data := (congrArg (ecbResult P · d data) h :)
  rw [cryptAnswer, cryptAnswer, hc, modeFn_ecb d data _ hm, modeFn_ecb d data _ hmt, hr]
  cases ecbResult P s d data <;> rfl

/-- An ECB command that answers OK writes nothing but by the setup (41_block_modes.md R165). -/
theorem exec_ecb_ok {d : Dir} {data out : ByteString} {s t : State} (hm : s.mode = .ecb)
    (h : exec (cryptInstr d data) s = .next t) (ha : t.answers = s.answers ++ [⟨.ok, out⟩]) :
    t = (lazySetup Config.params s).answer .ok out := by
  obtain ⟨-, -, w, hw, rfl⟩ := exec_crypt_ok h ha
  rw [modeFn_ecb d data _ hm] at hw
  cases hr : ecbResult Config.params s d data with
  | error e => rw [hr] at hw; cases hw
  | ok y =>
    rw [hr] at hw
    cases hw
    rw [writeBack_startStream]

/-- Settles O41: the answers agree by `cryptAnswer_ecb_congr`; an error leaves the state, and an OK runs the setup at most. -/
theorem ecbIgnoresIv : Obligations.EcbIgnoresIv := by
  intro d data s t hm h
  obtain ⟨s', hs', has⟩ := exec_cryptInstr_answers d data s
  obtain ⟨t', ht', hat⟩ := exec_cryptInstr_answers d data t
  rw [cryptAnswer_ecb_congr hm h] at hat
  refine ⟨s', t', _, hs', ht', has, hat, ?_⟩
  generalize cryptAnswer Config.params d data s = a at has
  obtain ⟨status, out⟩ := a
  cases status with
  | ok =>
    obtain ⟨hoff, hon⟩ := lazySetup_streams Config.params s
    rw [exec_ecb_ok hm hs' has]
    exact ⟨fun hc => hoff (hc.resolve_right (· rfl)), fun hc => hon hc.1⟩
  | error e =>
    obtain ⟨-, rfl, -⟩ := exec_error hs' has
    exact ⟨fun _ => ⟨rfl, rfl⟩, fun hc => nomatch hc.2⟩

end Sys2Proof.Proofs
end

section
/-! PROOFS. The feedback and stream modes (42_feedback_modes.md R180 to R194): what holds of them alike, `Inc`, STREAM, and
CFB8's window. A loop over bytes is followed by its trace, the stream before each byte. -/

namespace Sys2Proof.Proofs

open Sys2Proof.Machine Sys2Proof.Safety

/-- Settles O46: `be_bytes` keeps the value modulo `256^B`. -/
theorem counterIncrementWraps : Obligations.CounterIncrementWraps := by
  intro v _
  rw [inc, beVal_beBytes, pow_mul]
  exact ⟨beBytes_length _ _, rfl⟩

/-- Settles O47: STREAM's result, answered and written back. -/
theorem streamModePassesThrough : Obligations.StreamModePassesThrough := by
  intro d data s hr hm w x
  have hl : LengthOk Config.params d data s := lengthOk_of_not_paddable (by rw [hm]; rfl)
  exact ⟨_, exec_crypt_of hr hl (modeFn_stream d data w hm), by simp [x], Config.params.streamXform_length _ _ _,
    fun hcb => stream_of_writeBack hcb⟩

/-! ### The modes as loops over bytes -/

/-- In state `s` the mode in direction `d` is the loop of `f` over the bytes (R180 to R188). -/
def LoopsOver (P : Params) (s : State) (d : Dir) (f : Byte → Stream → Byte × Stream) : Prop :=
  ∀ data w, modeFn P s d data w = .ok (forEachByte f data w)

/-- The ciphertext byte of a byte `x` taken in and `y` given out. -/
def cipherByte (d : Dir) (x y : Byte) : Byte :=
  match d with
  | .enc => y
  | .dec => x

/-- One byte of CFB in direction `d` (R181, R182). -/
def cfbByte (P : Params) (key : ByteString) (d : Dir) (x : Byte) (w : Stream) : Byte × Stream :=
  let w1 := cfbRefill P key w
  let y := x ^^^ keystreamByte w1
  (y, advance P { w1 with iv := w1.iv.set w1.pos (cipherByte d x y) })

/-- One byte of CFB8 in direction `d` (R183, R184). -/
def cfb8Byte (P : Params) (key : ByteString) (d : Dir) (x : Byte) (w : Stream) : Byte × Stream :=
  let y := x ^^^ cfb8KeyByte P key w
  (y, shiftWindow (cipherByte d x y) w)

theorem loopsOver_cfb (P : Params) {s : State} (d : Dir) (hm : s.mode = .cfb) :
    LoopsOver P s d (cfbByte P s.key d) := by
  intro data w
  cases d <;> simp only [modeFn, hm] <;> rfl

theorem loopsOver_cfb8 (P : Params) {s : State} (d : Dir) (hm : s.mode = .cfb8) :
    LoopsOver P s d (cfb8Byte P s.key d) := by
  intro data w
  cases d <;> simp only [modeFn, hm] <;> rfl

theorem loopsOver_ofb (P : Params) {s : State} (d : Dir) (hm : s.mode = .ofb) :
    LoopsOver P s d (ofbByte P s.key) := by
  intro data w
  simp only [modeFn, hm, ofbXform]

theorem loopsOver_ctr (P : Params) {s : State} (d : Dir) (hm : s.mode = .ctr) :
    LoopsOver P s d (ctrByte P s.key) := by
  intro data w
  simp only [modeFn, hm, ctrXform]

theorem exists_loopsOver (P : Params) {s : State} (d : Dir) (hm : s.mode ∈ [Mode.cfb, .cfb8, .ofb, .ctr]) :
    ∃ f, LoopsOver P s d f := by
  obtain h | h | h | h : s.mode = .cfb ∨ s.mode = .cfb8 ∨ s.mode = .ofb ∨ s.mode = .ctr := by simpa using hm
  · exact ⟨_, loopsOver_cfb P d h⟩
  · exact ⟨_, loopsOver_cfb8 P d h⟩
  · exact ⟨_, loopsOver_ofb P d h⟩
  · exact ⟨_, loopsOver_ctr P d h⟩

/-- Padding is for ECB and CBC only (R192). -/
theorem paddable_eq_false {m : Mode} (hm : m ∈ [Mode.cfb, .cfb8, .ofb, .ctr, .stream]) : paddable m = false := by
  revert hm
  cases m <;> decide

/-- A ready data command whose mode is a loop over the bytes answers OK with the output of the loop, and with `CB_EN = 1`
its stream ends as the loop leaves it. -/
theorem exec_of_loopsOver {d : Dir} (data : ByteString) {s : State} {f : Byte → Stream → Byte × Stream} (hr : Ready s)
    (hm : paddable s.mode = false) (hf : LoopsOver Config.params s d f) :
    let r := forEachByte f data (startStream Config.params d s)
    ∃ t, exec (cryptInstr d data) s = .next t ∧ t.answers = s.answers ++ [⟨.ok, r.1⟩] ∧
      (s.cbEn = true → t.stream d = r.2) :=
  ⟨_, exec_crypt_of hr (lengthOk_of_not_paddable hm) (hf data _), by simp, fun hcb => stream_of_writeBack hcb⟩

/-- Settles O48: one output byte per byte of the loop, and the loop over the common beginning comes first. -/
theorem outputDependsOnPrefix : Obligations.OutputDependsOnPrefix := by
  intro d common rest1 rest2 s hr hm
  obtain ⟨f, hf⟩ := exists_loopsOver Config.params d hm
  have hpad := paddable_eq_false (List.mem_append_left [.stream] hm)
  obtain ⟨t1, ht1, ha1, -⟩ := exec_of_loopsOver (common ++ rest1) hr hpad hf
  obtain ⟨t2, ht2, ha2, -⟩ := exec_of_loopsOver (common ++ rest2) hr hpad hf
  refine ⟨t1, t2, _, _, ht1, ht2, ha1, ha2, forEachByte_length _ _ _, forEachByte_length _ _ _, ?_⟩
  rw [forEachByte_append, forEachByte_append, List.take_left' (forEachByte_length _ _ _),
    List.take_left' (forEachByte_length _ _ _)]

/-! ### `PAD_EN` -/

/-- `PAD_EN <- b`, which PAD_ENABLE and PAD_DISABLE do (43_padding.md R214, R215). -/
def setPadEn (b : Bool) (s : State) : State := { s with padEn := b }

/-- In a mode that does not pad, no check reads `PAD_EN`. -/
theorem cryptCheck_setPadEn {P : Params} {s : State} (d : Dir) (data : ByteString) (b : Bool)
    (hm : paddable s.mode = false) : cryptCheck P d data (setPadEn b s) = cryptCheck P d data s := by
  have hs : checkLength P d data s = none := checkLength_none_iff.2 (lengthOk_of_not_paddable hm)
  have hb : checkLength P d data (setPadEn b s) = none := checkLength_none_iff.2 (lengthOk_of_not_paddable hm)
  rw [cryptCheck, cryptCheck, hs, hb]
  rfl

/-- A mode that does not pad does not read `PAD_EN`. -/
theorem modeFn_setPadEn {P : Params} {s : State} (d : Dir) (data : ByteString) (w : Stream) (b : Bool)
    (hm : paddable s.mode = false) : modeFn P (setPadEn b s) d data w = modeFn P s d data w := by
  unfold modeFn setPadEn
  cases h : s.mode <;> simp [h, paddable] at hm ⊢

theorem lazySetup_setPadEn (P : Params) (b : Bool) (s : State) :
    lazySetup P (setPadEn b s) = setPadEn b (lazySetup P s) := by
  unfold lazySetup setPadEn
  split <;> rfl

theorem writeBack_setPadEn (d : Dir) (w : Stream) (b : Bool) (s : State) :
    writeBack d w (setPadEn b s) = setPadEn b (writeBack d w s) := by
  unfold writeBack setPadEn
  cases d <;> split <;> rfl

theorem startStream_setPadEn (P : Params) (d : Dir) (b : Bool) (s : State) :
    startStream P d (setPadEn b s) = startStream P d s := by
  cases d <;> rfl

/-- In a mode that does not pad, another `PAD_EN` is carried through a data command. -/
theorem finish_crypt_setPadEn {P : Params} {s : State} (d : Dir) (data : ByteString) (b : Bool)
    (hm : paddable s.mode = false) :
    finish (setPadEn b s) (crypt P d data (setPadEn b s)) = setPadEn b (finish s (crypt P d data s)) := by
  unfold crypt
  rw [cryptCheck_setPadEn d data b hm]
  cases cryptCheck P d data s with
  | some e => rfl
  | none =>
    simp only [cryptBody_eq, modeFn_setPadEn d data _ b hm, startStream_setPadEn, lazySetup_setPadEn,
      writeBack_setPadEn]
    cases modeFn P s d data (startStream P d s) <;> rfl

/-- No data command writes `PAD_EN`. -/
theorem finish_crypt_padEn (P : Params) (d : Dir) (data : ByteString) (s : State) :
    (finish s (crypt P d data s)).padEn = s.padEn := by
  cases hr : crypt P d data s with
  | error e => rfl
  | ok p =>
    obtain ⟨-, -, v, -, hp⟩ := crypt_ok hr
    rw [finish_ok, answer_padEn, hp, writeBack_lazySetup_frame]

/-- Settles O49: `PAD_EN` is not written, and another value of it is carried through. -/
theorem feedbackModesIgnorePadding : Obligations.FeedbackModesIgnorePadding := by
  intro d data s b hm
  refine ⟨_, exec_cryptInstr d data s, finish_crypt_padEn _ d data s, ?_⟩
  exact (exec_cryptInstr d data (setPadEn b s)).trans
    (congrArg _ (finish_crypt_setPadEn d data b (paddable_eq_false hm)))

/-! ### The trace of a loop -/

/-- If `trace` is the stream before each byte, the loop gives what one byte gives at each point of it. The stream after a
byte may be shown with that byte's output known, since a mode may feed it back. -/
theorem forEachByte_of_trace {f : Byte → Stream → Byte × Stream} (trace : Nat → Stream) {data : ByteString} {w : Stream}
    (h0 : trace 0 = w)
    (hstep : ∀ i x, data[i]? = some x → (forEachByte f data w).1[i]? = some (f x (trace i)).1 →
      (f x (trace i)).2 = trace (i + 1)) :
    forEachByte f data w = (data.mapIdx (fun i x => (f x (trace i)).1), trace data.length) := by
  induction data generalizing trace w with
  | nil => rw [← h0]; rfl
  | cons x xs ih =>
    subst h0
    have h1 : (f x (trace 0)).2 = trace 1 := hstep 0 x rfl rfl
    have hrest := ih (fun i => trace (i + 1)) h1.symm fun i y hy hout => hstep (i + 1) y hy hout
    rw [forEachByte_cons, hrest, List.mapIdx_cons]
    rfl

/-- Byte `i` of the ciphertext behind a string `pre`, from byte `i` of the data and of the output. -/
theorem getElem?_append_ciphertext {d : Dir} {data out pre : ByteString} {i n : Nat} {x y : Byte} (hn : pre.length = n)
    (hx : data[i]? = some x) (hy : out[i]? = some y) :
    (pre ++ if d = .enc then out else data)[n + i]? = some (cipherByte d x y) := by
  rw [List.getElem?_append_right (by omega), hn, Nat.add_sub_cancel_left]
  cases d with
  | enc => exact hy
  | dec => exact hx

/-! ### CFB8 -/

/-- CFB8's stream before byte `i`: the window shows the `B` bytes at index `i` of `z`. -/
def cfb8Trace (P : Params) (w : Stream) (z : ByteString) (i : Nat) : Stream :=
  { w with iv := (z.drop i).take P.blockSize }

/-- A window of `n` bytes shifted by one byte. -/
theorem drop_one_take_append {z : ByteString} {n i : Nat} {c : Byte} (hn : 0 < n) (hc : z[n + i]? = some c) :
    ((z.drop i).take n).drop 1 ++ [c] = (z.drop (i + 1)).take n := by
  obtain ⟨n, rfl⟩ := Nat.exists_eq_add_one.mpr hn
  have hc' : (z.drop (i + 1))[n]? = some c := by rw [List.getElem?_drop, ← hc]; congr 1; omega
  rw [List.drop_take, List.drop_drop, Nat.add_sub_cancel, List.take_add_one, hc']
  rfl

/-- The loop of CFB8: its window slides over `IV ++ ciphertext` (R183, R184). -/
theorem forEachByte_cfb8Byte {P : Params} {key data : ByteString} {d : Dir} {w : Stream}
    (hw : w.iv.length = P.blockSize) :
    let out := (forEachByte (cfb8Byte P key d) data w).1
    let z := w.iv ++ if d = .enc then out else data
    forEachByte (cfb8Byte P key d) data w =
      (data.mapIdx (fun i x => x ^^^ (P.encryptBlock key ((z.drop i).take P.blockSize)).headD 0),
        { w with iv := z.drop data.length }) := by
  intro out z
  have hlen : out.length = data.length := forEachByte_length _ _ _
  have h0 : cfb8Trace P w z 0 = w := by simp [cfb8Trace, z, ← hw]
  have hend : (z.drop data.length).take P.blockSize = z.drop data.length :=
    List.take_of_length_le (by cases d <;> simp [z, hw, hlen])
  have hstep : ∀ i x, data[i]? = some x → out[i]? = some (cfb8Byte P key d x (cfb8Trace P w z i)).1 →
      (cfb8Byte P key d x (cfb8Trace P w z i)).2 = cfb8Trace P w z (i + 1) := by
    intro i x hx hout
    have hz := getElem?_append_ciphertext (d := d) hw hx hout
    exact congrArg (fun iv => { w with iv := iv }) (drop_one_take_append P.blockSize_pos hz)
  have hloop := forEachByte_of_trace _ h0 hstep
  rw [cfb8Trace, hend] at hloop
  exact hloop

/-- Settles O43: the loop of CFB8, answered and written back. -/
theorem cfb8SlidesWindow : Obligations.Cfb8SlidesWindow := by
  intro d data s hr hm hiv B w
  obtain ⟨t, ht, ha, hcb⟩ :=
    exec_of_loopsOver data hr (by rw [hm]; rfl) (loopsOver_cfb8 Config.params d hm)
  have hloop := forEachByte_cfb8Byte (key := s.key) (data := data) (d := d) hiv
  exact ⟨t, _, ht, ha, congrArg Prod.fst hloop, fun h => (hcb h).trans (congrArg Prod.snd hloop)⟩

end Sys2Proof.Proofs
end

section
/-! PROOFS. The modes that buffer a keystream block, CFB, OFB and CTR, from any start (42_feedback_modes.md R180 to R188).
One discipline serves all three (R180): the cursor and the buffer before byte `i` are those of index `POS + i`, counted from
the start of the block under way, and a mode adds only what it generates and what it feeds back. -/

namespace Sys2Proof.Proofs

open Sys2Proof.Machine Sys2Proof.Safety

/-! ### The discipline -/

/-- What a mode adds to the buffer discipline (R180). -/
structure BufferedMode where
  /-- The keystream block generated from the register. -/
  gen : ByteString → ByteString
  /-- The register after a block is generated. -/
  next : ByteString → ByteString
  /-- The register after byte `x` is transformed to `y` at the cursor. -/
  feed : Nat → Byte → Byte → ByteString → ByteString

/-- A new block at `POS = 0`, and no block elsewhere. -/
def BufferedMode.refill (M : BufferedMode) (w : Stream) : Stream :=
  if w.pos = 0 then { w with iv := M.next w.iv, ks := M.gen w.iv } else w

/-- One byte under the discipline. -/
def BufferedMode.byte (M : BufferedMode) (P : Params) (x : Byte) (w : Stream) : Byte × Stream :=
  let w1 := M.refill w
  let y := x ^^^ keystreamByte w1
  (y, advance P { w1 with iv := M.feed w1.pos x y w1.iv })

/-- CFB writes the ciphertext byte into the register at the cursor (R181, R182). -/
def cfbMode (P : Params) (key : ByteString) (d : Dir) : BufferedMode where
  gen := P.encryptBlock key
  next iv := iv
  feed pos x y iv := iv.set pos (cipherByte d x y)

/-- OFB keeps the keystream block itself in the register (R185, R186). -/
def ofbMode (P : Params) (key : ByteString) : BufferedMode where
  gen := P.encryptBlock key
  next := P.encryptBlock key
  feed _ _ _ iv := iv

/-- CTR advances the counter as the block is generated (R187, R188). -/
def ctrMode (P : Params) (key : ByteString) : BufferedMode where
  gen := P.encryptBlock key
  next := inc P
  feed _ _ _ iv := iv

theorem cfbByte_eq (P : Params) (key : ByteString) (d : Dir) : cfbByte P key d = (cfbMode P key d).byte P := rfl

theorem ofbByte_eq (P : Params) (key : ByteString) : ofbByte P key = (ofbMode P key).byte P := rfl

theorem ctrByte_eq (P : Params) (key : ByteString) : ctrByte P key = (ctrMode P key).byte P := rfl

/-! ### Its trace -/

/-- The stream before byte `i` when block `n`, counted from the block under way, is `ks n` and the register before byte `i`
is `reg i`. -/
def bufferTrace (P : Params) (w : Stream) (ks reg : Nat → ByteString) (i : Nat) : Stream :=
  { w with
    iv := reg i
    ks := if i = 0 then w.ks else ks ((w.pos + i - 1) / P.blockSize)
    pos := (w.pos + i) % P.blockSize }

/-- `ks` and `reg` are the keystream blocks and the registers of a mode started at `w`: a block under way is `KS`, and a
block is generated from the register when the cursor is 0. -/
structure KeystreamOf (M : BufferedMode) (P : Params) (w : Stream) (ks reg : Nat → ByteString) : Prop where
  start : reg 0 = w.iv
  underWay : w.pos ≠ 0 → ks 0 = w.ks
  generated : ∀ i, (w.pos + i) % P.blockSize = 0 → M.gen (reg i) = ks ((w.pos + i) / P.blockSize)

/-- Below an index that is no multiple of the block size lies an index of the same block. -/
theorem pred_div_of_mod_ne_zero {m n : Nat} (h : m % n ≠ 0) : (m - 1) / n = m / n := by
  obtain ⟨k, rfl⟩ := Nat.exists_eq_succ_of_ne_zero (show m ≠ 0 by rintro rfl; exact h (Nat.zero_mod n))
  rw [Nat.succ_div_of_not_dvd (mt Nat.mod_eq_zero_of_dvd h)]
  rfl

/-- After the refill the buffer holds the block that the index is in. -/
theorem refill_bufferTrace {M : BufferedMode} {P : Params} {w : Stream} {ks reg : Nat → ByteString}
    (hpos : w.pos < P.blockSize) (h : KeystreamOf M P w ks reg) (i : Nat) :
    M.refill (bufferTrace P w ks reg i) = { w with
      iv := if (w.pos + i) % P.blockSize = 0 then M.next (reg i) else reg i
      ks := ks ((w.pos + i) / P.blockSize)
      pos := (w.pos + i) % P.blockSize } := by
  by_cases hm : (w.pos + i) % P.blockSize = 0
  · simp only [BufferedMode.refill, bufferTrace, if_pos hm, h.generated i hm]
  · have hks : (if i = 0 then w.ks else ks ((w.pos + i - 1) / P.blockSize)) = ks ((w.pos + i) / P.blockSize) := by
      split
      next hi =>
        subst hi
        rw [Nat.add_zero, Nat.mod_eq_of_lt hpos] at hm
        rw [Nat.add_zero, Nat.div_eq_of_lt hpos, h.underWay hm]
      next => rw [pred_div_of_mod_ne_zero hm]
    simp only [BufferedMode.refill, bufferTrace, if_neg hm, hks]

/-- The output byte is the data byte XOR its byte of the keystream. -/
theorem byte_bufferTrace_fst {M : BufferedMode} {P : Params} {w : Stream} {ks reg : Nat → ByteString}
    (hpos : w.pos < P.blockSize) (h : KeystreamOf M P w ks reg) (i : Nat) (x : Byte) :
    (M.byte P x (bufferTrace P w ks reg i)).1 =
      x ^^^ (ks ((w.pos + i) / P.blockSize)).getD ((w.pos + i) % P.blockSize) 0 := by
  simp only [BufferedMode.byte, refill_bufferTrace hpos h, keystreamByte]

/-- `reg` is the registers that the mode's feedback leaves, byte after byte; each may be shown with the byte's output
known. -/
def BufferedMode.Feeds (M : BufferedMode) (P : Params) (data : ByteString) (w : Stream) (reg : Nat → ByteString) : Prop :=
  ∀ i x y, data[i]? = some x → (forEachByte (M.byte P) data w).1[i]? = some y →
    M.feed ((w.pos + i) % P.blockSize) x y (if (w.pos + i) % P.blockSize = 0 then M.next (reg i) else reg i) = reg (i + 1)

/-- The loop of a mode under the discipline, its keystream and registers given. -/
theorem forEachByte_buffered {M : BufferedMode} {P : Params} {w : Stream} {ks reg : Nat → ByteString} {data : ByteString}
    (hpos : w.pos < P.blockSize) (h : KeystreamOf M P w ks reg) (hreg : M.Feeds P data w reg) :
    forEachByte (M.byte P) data w =
      (data.mapIdx (fun i x => x ^^^ (ks ((w.pos + i) / P.blockSize)).getD ((w.pos + i) % P.blockSize) 0),
        { w with
          iv := reg data.length
          ks := if data = [] then w.ks else ks ((w.pos + data.length - 1) / P.blockSize)
          pos := (w.pos + data.length) % P.blockSize }) := by
  have h0 : bufferTrace P w ks reg 0 = w := by simp [bufferTrace, h.start, Nat.mod_eq_of_lt hpos]
  have hstep : ∀ i x, data[i]? = some x →
      (forEachByte (M.byte P) data w).1[i]? = some (M.byte P x (bufferTrace P w ks reg i)).1 →
      (M.byte P x (bufferTrace P w ks reg i)).2 = bufferTrace P w ks reg (i + 1) := by
    intro i x hx hout
    have hfed := hreg i x _ hx hout
    simp only [BufferedMode.byte, refill_bufferTrace hpos h] at hfed ⊢
    simp [bufferTrace, advance, hfed, ← Nat.add_assoc]
  rw [forEachByte_of_trace _ h0 hstep]
  simp only [byte_bufferTrace_fst hpos h]
  simp only [bufferTrace, List.length_eq_zero_iff]

/-- A ready data command in a mode under the discipline, its keystream and registers given. -/
theorem exec_buffered {M : BufferedMode} {d : Dir} {data : ByteString} {s : State} {ks reg : Nat → ByteString}
    (hr : Ready s) (hm : paddable s.mode = false) (hM : LoopsOver Config.params s d (M.byte Config.params))
    (hpos : (startStream Config.params d s).pos < Config.params.blockSize)
    (h : KeystreamOf M Config.params (startStream Config.params d s) ks reg)
    (hreg : M.Feeds Config.params data (startStream Config.params d s) reg) :
    let B := Config.params.blockSize
    let w := startStream Config.params d s
    let m := w.pos + data.length
    ∃ t, exec (cryptInstr d data) s = .next t ∧
      t.answers = s.answers ++ [⟨.ok, data.mapIdx (fun i x => x ^^^ (ks ((w.pos + i) / B)).getD ((w.pos + i) % B) 0)⟩] ∧
      (s.cbEn = true → t.stream d = { w with
        iv := reg data.length
        ks := if data = [] then w.ks else ks ((m - 1) / B)
        pos := m % B }) := by
  have hrun := exec_of_loopsOver data hr hm hM
  rwa [forEachByte_buffered hpos h hreg] at hrun

/-! ### OFB and CTR -/

/-- 1 when a block is under way, whose keystream stands in `KS`, else 0. -/
def underWay (w : Stream) : Nat := if w.pos = 0 then 0 else 1

/-- Keystream block `n`, counted from the block under way, when the mode feeds back nothing. -/
def iteratedKeystream (M : BufferedMode) (w : Stream) (n : Nat) : ByteString :=
  if n < underWay w then w.ks else M.gen (M.next^[n - underWay w] w.iv)

/-- The register before byte `i` when the mode feeds back nothing: `next` once for each block generated. -/
def iteratedRegister (M : BufferedMode) (P : Params) (w : Stream) (i : Nat) : ByteString :=
  M.next^[(w.pos + i + P.blockSize - 1) / P.blockSize - underWay w] w.iv

/-- How many blocks an index reaches into: one more when it is inside a block. -/
theorem add_pred_div {n : Nat} (hn : 0 < n) (m : Nat) :
    (m + n - 1) / n = if m % n = 0 then m / n else m / n + 1 := by
  have hsucc := Nat.add_div_right m hn
  split
  next h =>
    obtain ⟨k, rfl⟩ := Nat.dvd_of_mod_eq_zero h
    rw [Nat.add_sub_assoc hn, Nat.mul_add_div hn, Nat.div_eq_of_lt (by omega), Nat.mul_div_cancel_left k hn, Nat.add_zero]
  next h => rw [pred_div_of_mod_ne_zero (by rwa [Nat.add_mod_right]), hsucc]

/-- An index at the start of a block is not before the first block generated. -/
theorem underWay_le_div {P : Params} {w : Stream} {i : Nat} (h : (w.pos + i) % P.blockSize = 0) :
    underWay w ≤ (w.pos + i) / P.blockSize := by
  unfold underWay
  split
  · exact Nat.zero_le _
  · exact (Nat.one_le_div_iff P.blockSize_pos).2 (Nat.le_of_dvd (by omega) (Nat.dvd_of_mod_eq_zero h))

/-- With nothing fed back, the keystream and the registers are those of `next` iterated. -/
theorem keystreamOf_iterated (M : BufferedMode) {P : Params} {w : Stream} (hpos : w.pos < P.blockSize) :
    KeystreamOf M P w (iteratedKeystream M w) (iteratedRegister M P w) where
  start := by
    have : (w.pos + 0 + P.blockSize - 1) / P.blockSize - underWay w = 0 := by
      rw [add_pred_div P.blockSize_pos, Nat.add_zero, Nat.mod_eq_of_lt hpos, Nat.div_eq_of_lt hpos, underWay]
      split <;> rfl
    rw [iteratedRegister, this, Function.iterate_zero_apply]
  underWay h := by simp [iteratedKeystream, underWay, h]
  generated i h := by
    rw [iteratedKeystream, if_neg (Nat.not_lt.2 (underWay_le_div h)), iteratedRegister, add_pred_div P.blockSize_pos,
      if_pos h]

/-- With nothing fed back, the register changes when a block is generated. -/
theorem feeds_iterated {M : BufferedMode} (hfeed : ∀ p x y iv, M.feed p x y iv = iv) (P : Params) (data : ByteString)
    (w : Stream) : M.Feeds P data w (iteratedRegister M P w) := by
  intro i x y _ _
  have hnext : (w.pos + (i + 1) + P.blockSize - 1) / P.blockSize = (w.pos + i) / P.blockSize + 1 := by
    rw [← Nat.add_div_right _ P.blockSize_pos]
    congr 1
    omega
  rw [hfeed, iteratedRegister, iteratedRegister, hnext, add_pred_div P.blockSize_pos]
  split
  next h => rw [← Function.iterate_succ_apply' M.next, Nat.succ_eq_add_one, Nat.sub_add_comm (underWay_le_div h)]
  next => rfl

/-- Settles O44: `E` of the register iterated `n` times is `E` iterated `n + 1` times. -/
theorem ofbIteratesCipher : Obligations.OfbIteratesCipher := by
  intro d data s hr hm hw B w m u ks
  have hks : iteratedKeystream (ofbMode Config.params s.key) w = ks := by
    funext n
    simp only [ks, Function.iterate_succ_apply']
    rfl
  have hrun := exec_buffered (M := ofbMode Config.params s.key) (data := data) hr (by rw [hm]; rfl)
    (ofbByte_eq _ _ ▸ loopsOver_ofb Config.params d hm) hw.pos_lt (keystreamOf_iterated _ hw.pos_lt)
    (feeds_iterated (fun _ _ _ _ => rfl) _ _ _)
  rwa [hks] at hrun

/-- `Inc` applied `n` times adds `n` (R189). -/
theorem iterate_inc {P : Params} {v : ByteString} (hv : v.length = P.blockSize) (n : Nat) :
    (inc P)^[n] v = beBytes P.blockSize (beVal v + n) := by
  induction n with
  | zero => rw [Function.iterate_zero_apply, Nat.add_zero, ← hv, beBytes_beVal]
  | succ n ih =>
    rw [Function.iterate_succ_apply', ih, inc, beVal_beBytes, ← beBytes_mod, Nat.mod_add_mod, beBytes_mod, Nat.add_assoc]

/-- Settles O45: the counter after `n` blocks is the register plus `n`. -/
theorem ctrCountsBlocks : Obligations.CtrCountsBlocks := by
  intro d data s hr hm hw B w m u counter ks
  have hcounter : ∀ n, (inc Config.params)^[n] w.iv = counter n := iterate_inc hw.iv_length
  have hks : iteratedKeystream (ctrMode Config.params s.key) w = ks := by
    funext n
    simp only [ks, ← hcounter]
    rfl
  have hrun := exec_buffered (M := ctrMode Config.params s.key) (data := data) hr (by rw [hm]; rfl)
    (ctrByte_eq _ _ ▸ loopsOver_ctr Config.params d hm) hw.pos_lt (keystreamOf_iterated _ hw.pos_lt)
    (feeds_iterated (fun _ _ _ _ => rfl) _ _ _)
  have hreg : iteratedRegister (ctrMode Config.params s.key) Config.params w data.length = _ := hcounter _
  rwa [hks, hreg] at hrun

/-! ### CFB -/

/-- CFB's register when the cursor is at index `m` of the string `z`: the bytes of the block under way, fed back, over the
block before it, which begins a block earlier in `z`. -/
def cfbRegister (n : Nat) (z : ByteString) (m : Nat) : ByteString :=
  (z.drop (m / n * n + n)).take (m % n) ++ (blockAt n z (m / n)).drop (m % n)

/-- CFB's keystream block `b`, counted from the block under way: `E` of the block before it. -/
def cfbKeystream (P : Params) (key : ByteString) (w : Stream) (z : ByteString) (b : Nat) : ByteString :=
  if b = 0 ∧ w.pos ≠ 0 then w.ks else P.encryptBlock key (blockAt P.blockSize z b)

/-- At the start of a block the register is the block before it. -/
theorem cfbRegister_of_mod_eq_zero {n m : Nat} (z : ByteString) (h : m % n = 0) :
    cfbRegister n z m = blockAt n z (m / n) := by
  rw [cfbRegister, h, List.take_zero, List.nil_append, List.drop_zero]

/-- Feeding back the byte at index `m`, which stands a block later in `z`. -/
theorem set_cfbRegister {n m : Nat} {z : ByteString} {c : Byte} (hn : 0 < n) (hc : z[n + m]? = some c) :
    (cfbRegister n z m).set (m % n) c = cfbRegister n z (m + 1) := by
  have hr := Nat.mod_lt m hn
  have hm : m / n * n + m % n = m := Nat.div_add_mod' m n
  obtain ⟨hlt, -⟩ := List.getElem?_eq_some_iff.mp hc
  have hfed : (z.drop (m / n * n + n))[m % n]? = some c := by rw [List.getElem?_drop, ← hc]; congr 1; omega
  have hlen : ((z.drop (m / n * n + n)).take (m % n)).length = m % n := by
    rw [List.length_take, List.length_drop]; omega
  have hblock : (blockAt n z (m / n)).length = n := by
    rw [blockAt, List.length_take, List.length_drop]; omega
  have hset : (cfbRegister n z m).set (m % n) c =
      (z.drop (m / n * n + n)).take (m % n + 1) ++ (blockAt n z (m / n)).drop (m % n + 1) := by
    rw [cfbRegister, List.set_append_right _ _ hlen.le, hlen, Nat.sub_self,
      List.drop_eq_getElem_cons (l := blockAt n z (m / n)) (by rwa [hblock]), List.set_cons_zero, List.take_add_one,
      hfed, List.append_assoc]
    rfl
  rw [hset]
  by_cases hend : m % n + 1 = n
  · have hsucc : 0 + n * (m / n + 1) = m + 1 := by rw [Nat.mul_succ, Nat.mul_comm]; omega
    obtain ⟨hdiv, hmod⟩ := (Nat.div_mod_unique hn).2 ⟨hsucc, hn⟩
    rw [cfbRegister_of_mod_eq_zero z hmod, hdiv, hend, List.drop_of_length_le hblock.le, List.append_nil, blockAt,
      Nat.succ_mul]
  · have hsucc : m % n + 1 + n * (m / n) = m + 1 := by rw [Nat.mul_comm]; omega
    obtain ⟨hdiv, hmod⟩ := (Nat.div_mod_unique hn).2 ⟨hsucc, by omega⟩
    rw [cfbRegister, hdiv, hmod]

/-- At the end of what was fed back, the register is the rest of it over the block before. -/
theorem cfbRegister_append_length {n : Nat} {iv fedBack : ByteString} (hiv : iv.length = n) :
    cfbRegister n (iv ++ fedBack) fedBack.length = fedBack.drop (fedBack.length / n * n) ++
      (blockAt n (iv ++ fedBack) (fedBack.length / n)).drop (fedBack.length % n) := by
  have hlen : (fedBack.drop (fedBack.length / n * n)).length = fedBack.length % n := by
    rw [List.length_drop, ← Nat.mod_eq_sub_div_mul]
  rw [cfbRegister, Nat.add_comm, ← List.drop_drop, ← hiv, List.drop_left, hiv, List.take_of_length_le hlen.le]

/-- The string that CFB's blocks are counted in, from a start `w` with the ciphertext `c`: the register, the bytes of the
block under way, the ciphertext. -/
def cfbString (w : Stream) (c : ByteString) : ByteString := w.iv ++ (w.iv.take w.pos ++ c)

/-- CFB's keystream and registers, whatever the ciphertext. -/
theorem keystreamOf_cfb {P : Params} {w : Stream} (key c : ByteString) (d : Dir) (hw : StreamShape P w) :
    KeystreamOf (cfbMode P key d) P w (cfbKeystream P key w (cfbString w c))
      (fun i => cfbRegister P.blockSize (cfbString w c) (w.pos + i)) where
  start := by
    have hpos := hw.pos_lt
    have htake : (w.iv.take w.pos ++ c).take w.pos = w.iv.take w.pos :=
      List.take_left' (by rw [List.length_take, hw.iv_length, Nat.min_eq_left hpos.le])
    rw [cfbRegister, Nat.add_zero, Nat.div_eq_of_lt hpos, Nat.mod_eq_of_lt hpos, cfbString, blockAt, Nat.zero_mul,
      Nat.zero_add, ← hw.iv_length, List.drop_left, htake, List.drop_zero, List.take_left, List.take_append_drop]
  underWay h := by simp [cfbKeystream, h]
  generated i h := by
    have hle := underWay_le_div h
    have hnew : ¬ ((w.pos + i) / P.blockSize = 0 ∧ w.pos ≠ 0) := by
      rintro ⟨hdiv, hne⟩
      simp [underWay, hdiv, hne] at hle
    rw [cfbKeystream, if_neg hnew, cfbRegister_of_mod_eq_zero _ h]
    rfl

/-- CFB feeds back the ciphertext byte, in both directions. -/
theorem feeds_cfb {P : Params} {w : Stream} (key data : ByteString) (d : Dir) (hw : StreamShape P w) :
    let out := (forEachByte ((cfbMode P key d).byte P) data w).1
    (cfbMode P key d).Feeds P data w
      (fun i => cfbRegister P.blockSize (cfbString w (if d = .enc then out else data)) (w.pos + i)) := by
  intro out i x y hx hy
  have hlen : (w.iv ++ w.iv.take w.pos).length = P.blockSize + w.pos := by
    rw [List.length_append, List.length_take, hw.iv_length, Nat.min_eq_left hw.pos_lt.le]
  have hc := getElem?_append_ciphertext (d := d) hlen hx hy
  rw [List.append_assoc, Nat.add_assoc] at hc
  exact (congrArg (List.set · _ _) (ite_self _)).trans (set_cfbRegister P.blockSize_pos hc)

/-- The loop of CFB from any start (R181, R182). -/
theorem forEachByte_cfbByte {P : Params} {key data : ByteString} {d : Dir} {w : Stream} (hw : StreamShape P w) :
    let out := (forEachByte (cfbByte P key d) data w).1
    let fedBack := w.iv.take w.pos ++ if d = .enc then out else data
    let z := w.iv ++ fedBack
    let m := w.pos + data.length
    let ks := cfbKeystream P key w z
    forEachByte (cfbByte P key d) data w =
      (data.mapIdx (fun i x => x ^^^ (ks ((w.pos + i) / P.blockSize)).getD ((w.pos + i) % P.blockSize) 0),
        { w with
          iv := fedBack.drop (m / P.blockSize * P.blockSize) ++
            (blockAt P.blockSize z (m / P.blockSize)).drop (m % P.blockSize)
          ks := if data = [] then w.ks else ks ((m - 1) / P.blockSize)
          pos := m % P.blockSize }) := by
  intro out fedBack z m ks
  have hout : out.length = data.length := forEachByte_length _ _ _
  have hlen : fedBack.length = m := by
    rw [List.length_append, List.length_take, hw.iv_length, Nat.min_eq_left hw.pos_lt.le, apply_ite List.length, hout,
      ite_self]
  have hreg := cfbRegister_append_length (fedBack := fedBack) hw.iv_length
  rw [hlen] at hreg
  have hloop := forEachByte_buffered hw.pos_lt (keystreamOf_cfb key _ d hw) (feeds_cfb key data d hw)
  rw [← cfbByte_eq] at hloop
  exact hreg ▸ hloop

/-- Settles O42: the loop of CFB, answered and written back. -/
theorem cfbFeedsBackCiphertext : Obligations.CfbFeedsBackCiphertext := by
  intro d data s hr hm hw B w m
  obtain ⟨t, ht, ha, hcb⟩ := exec_of_loopsOver data hr (by rw [hm]; rfl) (loopsOver_cfb Config.params d hm)
  have hloop := forEachByte_cfbByte (key := s.key) (data := data) (d := d) hw
  exact ⟨t, _, ht, ha, congrArg Prod.fst hloop, fun h => (hcb h).trans (congrArg Prod.snd hloop)⟩

end Sys2Proof.Proofs
end

section
/-! PROOFS. The padding unit on its own (43_padding.md R211 to R216): the pad byte carries the count, `Unpad` reads the last
byte and no other, and the switches write `PAD_EN`. -/

namespace Sys2Proof.Proofs

open Sys2Proof.Machine

/-! ### Pad -/

/-- A pad count fits in a byte, so the pad byte's value is the count (R211, 00_scope.md R9). -/
theorem toNat_padByte (P : Params) (len : Nat) : (BitVec.ofNat 8 (padCount P len)).toNat = padCount P len := by
  have hcount := padCount_le P len
  have hblock := P.blockSize_le
  rw [BitVec.toNat_ofNat, Nat.mod_eq_of_lt (by omega)]

/-- Settles O51: the count is in `1..B`, and the pad byte's value is the count. -/
theorem padAppendsCount : Obligations.PadAppendsCount := fun x =>
  ⟨padCount Config.params x.length, BitVec.ofNat 8 (padCount Config.params x.length), rfl, padCount_pos _ _,
    padCount_le _ _, toNat_padByte _ _, rfl, Nat.mod_eq_zero_of_dvd (blockSize_dvd_pad_length _ x)⟩

/-! ### Unpad -/

/-- A last byte of 0 or above `B` is no count (R212). -/
theorem unpad_append_bad_count {P : Params} {b : Byte} (h : b = 0 ∨ b.toNat > P.blockSize) (y : ByteString) :
    unpad P (y ++ [b]) = .error .paddingError := by
  have hbad : b.toNat = 0 ∨ b.toNat > P.blockSize := h.imp_left (congrArg BitVec.toNat)
  rw [unpad, List.getLast?_concat]
  exact if_pos hbad

/-- A last byte in `1..B` is the count of what is removed, itself included; `z`, before it, is not read (R213). -/
theorem unpad_append_count {P : Params} {b : Byte} {z : ByteString} (hle : b.toNat ≤ P.blockSize)
    (hz : z.length + 1 = b.toNat) (x : ByteString) : unpad P (x ++ z ++ [b]) = .ok x := by
  have hgood : ¬ (b.toNat = 0 ∨ b.toNat > P.blockSize) := by omega
  have hkept : (x ++ z ++ [b]).length - b.toNat = x.length := by
    simp only [List.length_append, List.length_singleton]
    omega
  rw [unpad, List.getLast?_concat]
  simp only [if_neg hgood, hkept]
  rw [List.append_assoc, List.take_left]

/-- Settles O52: no last byte, a last byte that is no count, and a count with any bytes before it. -/
theorem unpadReadsLastByteOnly : Obligations.UnpadReadsLastByteOnly :=
  ⟨unpad_nil _, fun y _ h => unpad_append_bad_count h y, fun x _ _ _ hle hz => unpad_append_count hle hz x⟩

/-- Settles O53: the last byte of `Pad(x)` is the count that `Pad` appended. -/
theorem unpadOfPad : Obligations.UnpadOfPad := unpad_pad Config.params

/-! ### The switches -/

/-- Settles O24: the result of a switch is `setPadEn`, and every command with a result answers it OK. -/
theorem padSwitchEffect : Obligations.PadSwitchEffect := fun s =>
  ⟨exec_of_ok (s' := setPadEn true s) (out := []) rfl, exec_of_ok (s' := setPadEn false s) (out := []) rfl⟩

end Sys2Proof.Proofs
end

section
/-! PROOFS. The streaming controls with their frames (44_streaming_control.md R230 to R232): each branch of a control has one
result, whose record is the next state but for the answer, so the frame is read off that record. -/

namespace Sys2Proof.Proofs

open Sys2Proof.Machine

/-! ### The result of each branch -/

/-- With `B` bytes SET_IV restarts both streams from the new `IV_CFG` (R230). -/
theorem commandResult_setIv_of_length_eq {P : Params} {v : ByteString} (s : State) (h : v.length = P.blockSize) :
    commandResult P (.setIv v) s = .ok ([], resetStreams P { s with ivCfg := v, ivSet := true }) :=
  if_pos h

theorem commandResult_setIv_of_length_ne {P : Params} {v : ByteString} (s : State) (h : v.length ≠ P.blockSize) :
    commandResult P (.setIv v) s = .error .lengthError :=
  if_neg h

theorem commandResult_cbEnable_of_cbEn_on (P : Params) {s : State} (h : s.cbEn = true) :
    commandResult P .cbEnable s = .ok ([], s) :=
  if_pos h

/-- CB_ENABLE from `CB_EN = 0` clears both cursors and draws with `CB_EN` set already (R231). -/
theorem commandResult_cbEnable_of_cbEn_off (P : Params) {s : State} (h : s.cbEn = false) :
    commandResult P .cbEnable s =
      .ok ([], drawBackend P { s with cbEn := true, enc := clearCursor s.enc, dec := clearCursor s.dec }) :=
  if_neg (by simp [h])

theorem commandResult_cbDisable_of_cbEn_off (P : Params) {s : State} (h : s.cbEn = false) :
    commandResult P .cbDisable s = .ok ([], s) :=
  if_neg (by simp [h])

/-- CB_DISABLE from `CB_EN = 1` restarts both streams and draws with `CB_EN` cleared already (R232). -/
theorem commandResult_cbDisable_of_cbEn_on (P : Params) {s : State} (h : s.cbEn = true) :
    commandResult P .cbDisable s = .ok ([], drawBackend P (resetStreams P { s with cbEn := false })) :=
  if_pos h

/-- A draw takes a backend that `Select` admits for the configuration it is drawn in (45_backend.md R250). -/
theorem select_drawBackend (P : Params) (s : State) :
    P.select s.mode s.keyLen s.cbEn (drawBackend P s).backend = true :=
  P.select_backendDraw s.draws s.mode s.keyLen s.cbEn

/-! ### The effects -/

/-- Settles O21: the result by the length of the IV, `Fresh()` being read from the new `IV_CFG`. -/
theorem setIvEffect : Obligations.SetIvEffect := by
  intro v s
  refine ⟨fun hlen => ?_, fun hlen => ?_⟩
  · exact (exec_of_ok (commandResult_setIv_of_length_eq s hlen)).trans rfl
  · exact exec_of_error (commandResult_setIv_of_length_ne s hlen)

/-- Settles O22: the result by `CB_EN`; the backend and the count are those of the draw, which `Select` admits. -/
theorem cbEnableEffect : Obligations.CbEnableEffect := by
  intro s
  refine ⟨fun hon => exec_of_ok (commandResult_cbEnable_of_cbEn_on _ hon), fun hoff => ?_⟩
  have hsel := select_drawBackend Config.params { s with cbEn := true }
  exact ⟨_, s.draws + 1, hsel, (exec_of_ok (commandResult_cbEnable_of_cbEn_off _ hoff)).trans rfl⟩

/-- Settles O23: the result by `CB_EN`; the backend and the count are those of the draw, which `Select` admits. -/
theorem cbDisableEffect : Obligations.CbDisableEffect := by
  intro s
  refine ⟨fun hoff => exec_of_ok (commandResult_cbDisable_of_cbEn_off _ hoff), fun hon => ?_⟩
  have hsel := select_drawBackend Config.params { s with cbEn := false }
  exact ⟨_, s.draws + 1, hsel, (exec_of_ok (commandResult_cbDisable_of_cbEn_on _ hon)).trans rfl⟩

end Sys2Proof.Proofs
end

section
/-! PROOFS. Engine transparency (45_backend.md R251). A state shows itself with `BACKEND` and the model's count of the
draws forgotten, and what a command shows of its next state is a function of what the state before it shows. -/

namespace Sys2Proof.Proofs

open Sys2Proof.Machine Sys2Proof.Safety

/-! ### What a state shows -/

/-- The state with `BACKEND` and the count of the draws forgotten. -/
def forgetBackend (s : State) : State := { s with backend := .internal, draws := 0 }

/-- Two states agree in everything but `BACKEND` and the count exactly when they show the same. -/
theorem sameButBackend_iff {s t : State} : SameButBackend s t ↔ forgetBackend s = forgetBackend t := by
  constructor
  · intro h
    rw [h]
    rfl
  · intro h
    exact (congrArg (fun r : State => { r with backend := t.backend, draws := t.draws }) h).symm

theorem forgetBackend_answer (s : State) (status : Status) (out : ByteString) :
    forgetBackend (s.answer status out) = (forgetBackend s).answer status out := rfl

/-! ### The data commands -/

/-- No check reads `BACKEND`. -/
theorem cryptCheck_forgetBackend (P : Params) (d : Dir) (data : ByteString) (s : State) :
    cryptCheck P d data (forgetBackend s) = cryptCheck P d data s := rfl

/-- No mode reads `BACKEND`. -/
theorem modeFn_forgetBackend (P : Params) (d : Dir) (data : ByteString) (w : Stream) (s : State) :
    modeFn P (forgetBackend s) d data w = modeFn P s d data w :=
  modeFn_congr P d data w rfl rfl rfl rfl

theorem startStream_forgetBackend (P : Params) (d : Dir) (s : State) :
    startStream P d (forgetBackend s) = startStream P d s := by
  cases d <;> rfl

/-- The setup draws a backend, and reads none (R138). -/
theorem forgetBackend_lazySetup (P : Params) (s : State) :
    forgetBackend (lazySetup P (forgetBackend s)) = forgetBackend (lazySetup P s) := by
  cases hc : s.changed with
  | true => rw [lazySetup_of_changed P hc, lazySetup_of_changed P (s := forgetBackend s) hc]; rfl
  | false => rw [lazySetup_of_unchanged P hc, lazySetup_of_unchanged P (s := forgetBackend s) hc]; rfl

theorem forgetBackend_writeBack (d : Dir) (w : Stream) (s : State) :
    forgetBackend (writeBack d w s) = writeBack d w (forgetBackend s) := by
  unfold writeBack forgetBackend
  cases d <;> split <;> rfl

/-- What a data command shows of its next state. -/
theorem forgetBackend_finish_crypt (P : Params) (d : Dir) (data : ByteString) (s : State) :
    forgetBackend (finish (forgetBackend s) (crypt P d data (forgetBackend s))) =
      forgetBackend (finish s (crypt P d data s)) := by
  unfold crypt
  rw [cryptCheck_forgetBackend]
  cases cryptCheck P d data s with
  | some e => rfl
  | none =>
    simp only [cryptBody_eq, modeFn_forgetBackend, startStream_forgetBackend]
    cases modeFn P s d data (startStream P d s) with
    | error e => rfl
    | ok p => simp only [finish_ok, forgetBackend_answer, forgetBackend_writeBack, forgetBackend_lazySetup]

/-! ### Every command -/

/-- What a command shows of its next state: it computes its answer and its writes from what the state before it shows. -/
theorem forgetBackend_finish (P : Params) (i : Instr) (s : State) :
    forgetBackend (finish (forgetBackend s) (commandResult P i (forgetBackend s))) =
      forgetBackend (finish s (commandResult P i s)) := by
  have hcb : (forgetBackend s).cbEn = s.cbEn := rfl
  have haccepts : ∀ n, acceptsKeyLength P (forgetBackend s) n = acceptsKeyLength P s n := fun _ => rfl
  cases i with
  | setKey k => simp only [commandResult, setKeyCmd, haccepts]; split <;> rfl
  | setIv v => simp only [commandResult, setIvCmd]; split <;> rfl
  | setMode m => simp only [commandResult, setModeCmd]; split <;> rfl
  | setKeylen n => simp only [commandResult, setKeylenCmd]; split <;> rfl
  | padEnable => rfl
  | padDisable => rfl
  | cbEnable => simp only [commandResult, cbEnableCmd, hcb]; split <;> rfl
  | cbDisable => simp only [commandResult, cbDisableCmd, hcb]; split <;> rfl
  | encrypt data => exact forgetBackend_finish_crypt P .enc data s
  | decrypt data => exact forgetBackend_finish_crypt P .dec data s

/-- From two states that agree but for `BACKEND`, a command goes to two such states. -/
theorem exec_sameButBackend (i : Instr) {s t : State} (h : SameButBackend s t) :
    ∃ s' t', exec i s = .next s' ∧ exec i t = .next t' ∧ SameButBackend s' t' := by
  refine ⟨_, _, exec_eq_finish i s, exec_eq_finish i t, ?_⟩
  rw [sameButBackend_iff] at h ⊢
  rw [← forgetBackend_finish, h, forgetBackend_finish]

/-- With no command issued a step waits (log entry 2). -/
theorem step_of_pending_eq_nil {s : State} (h : s.pending = []) : step s = .next s := by
  simp only [step, h]

/-- Settles O59: both states wait, refuse one command that does not decode, or run one command. -/
theorem engineTransparency : Obligations.EngineTransparency := by
  intro s t h
  have hpending : t.pending = s.pending := (congrArg State.pending h :)
  cases hs : s.pending with
  | nil => exact ⟨s, t, step_of_pending_eq_nil hs, step_of_pending_eq_nil (hpending.trans hs), h⟩
  | cons c rest =>
    have hrest : SameButBackend { s with pending := rest } { t with pending := rest } :=
      (congrArg (fun r : State => { r with pending := rest }) h :)
    cases hd : decode c with
    | error e =>
      refine ⟨_, _, step_of_decode_error hs hd, step_of_decode_error (hpending.trans hs) hd, ?_⟩
      exact (congrArg (raise .illegalCommand) hrest :)
    | ok i =>
      rw [step_of_decode_ok hs hd, step_of_decode_ok (hpending.trans hs) hd]
      exact exec_sameButBackend i hrest

end Sys2Proof.Proofs
end

section
/-! PROOFS. Which function of the primitive a mode calls (45_backend.md R254). Under two sets of parameters with one block
size every call of `E` or `D` is on a block of `B` bytes under `KEY`, so agreement there is agreement of the modes. -/

namespace Sys2Proof.Proofs

open Sys2Proof.Machine Sys2Proof.Safety

/-! ### The block loops -/

/-- `Pad` reads of the parameters the block size only. -/
theorem padIfEnabled_congr {P Q : Params} (hB : P.blockSize = Q.blockSize) (padEn : Bool) (x : ByteString) :
    padIfEnabled P padEn x = padIfEnabled Q padEn x := by
  simp only [padIfEnabled, pad, padCount, hB]

/-- `Unpad` reads of the parameters the block size only. -/
theorem unpadIfEnabled_congr {P Q : Params} (hB : P.blockSize = Q.blockSize) (padEn : Bool) (y : ByteString) :
    unpadIfEnabled P padEn y = unpadIfEnabled Q padEn y := by
  simp only [unpadIfEnabled, unpad, hB]

/-- Two functions that agree on the blocks of `n` bytes give the same, block by block. -/
theorem flatMap_blocks_congr {n : Nat} {f g : ByteString → ByteString} (h : ∀ b, b.length = n → f b = g b)
    (s : ByteString) : (blocks n s).flatMap f = (blocks n s).flatMap g :=
  List.flatMap_congr fun b hb => h b (length_of_mem_blocks hb)

/-- CBC encrypts the XOR of two blocks, which is a block. -/
theorem cbcEncLoop_congr {P Q : Params} {key : ByteString}
    (hE : ∀ b : ByteString, b.length = P.blockSize → P.encryptBlock key b = Q.encryptBlock key b)
    (bs : List ByteString) (hbs : ∀ b ∈ bs, b.length = P.blockSize) (c : ByteString) (hc : c.length = P.blockSize) :
    cbcEncLoop P key bs c = cbcEncLoop Q key bs c := by
  induction bs generalizing c with
  | nil => rfl
  | cons b bs ih =>
    obtain ⟨hb, hbs⟩ := List.forall_mem_cons.mp hbs
    have hxor : (xorBytes b c).length = P.blockSize := (xorBytes_length (hb.trans hc.symm)).trans hb
    simp only [cbcEncLoop, ← hE _ hxor, ih hbs _ (cbc_block_length P key hb hc)]

/-- CBC decrypts the ciphertext blocks. -/
theorem cbcDecLoop_congr {P Q : Params} {key : ByteString}
    (hD : ∀ b : ByteString, b.length = P.blockSize → P.decryptBlock key b = Q.decryptBlock key b)
    (bs : List ByteString) (hbs : ∀ b ∈ bs, b.length = P.blockSize) (c : ByteString) :
    cbcDecLoop P key bs c = cbcDecLoop Q key bs c := by
  induction bs generalizing c with
  | nil => rfl
  | cons b bs ih =>
    obtain ⟨hb, hbs⟩ := List.forall_mem_cons.mp hbs
    simp only [cbcDecLoop, hD b hb, ih hbs]

/-- ECB and CBC call `E` to encrypt. -/
theorem modeFn_block_enc_congr {P Q : Params} {s : State} (data : ByteString) {w : Stream}
    (hB : P.blockSize = Q.blockSize) (hw : w.iv.length = P.blockSize)
    (hE : ∀ b : ByteString, b.length = P.blockSize → P.encryptBlock s.key b = Q.encryptBlock s.key b)
    (hm : s.mode ∈ [Mode.ecb, .cbc]) : modeFn P s .enc data w = modeFn Q s .enc data w := by
  obtain hm | hm : s.mode = .ecb ∨ s.mode = .cbc := by simpa using hm
  · rw [modeFn_ecb .enc data w hm, modeFn_ecb .enc data w hm]
    simp only [ecbResult, ecbEnc, ← padIfEnabled_congr hB, ← hB, flatMap_blocks_congr hE]
  · rw [modeFn_cbc_enc data w hm, modeFn_cbc_enc data w hm, ← padIfEnabled_congr hB, ← hB,
      cbcEncLoop_congr hE _ (fun _ => length_of_mem_blocks) _ hw]

/-- ECB and CBC call `D` to decrypt. -/
theorem modeFn_block_dec_congr {P Q : Params} {s : State} (data : ByteString) (w : Stream)
    (hB : P.blockSize = Q.blockSize)
    (hD : ∀ b : ByteString, b.length = P.blockSize → P.decryptBlock s.key b = Q.decryptBlock s.key b)
    (hm : s.mode ∈ [Mode.ecb, .cbc]) : modeFn P s .dec data w = modeFn Q s .dec data w := by
  obtain hm | hm : s.mode = .ecb ∨ s.mode = .cbc := by simpa using hm
  · rw [modeFn_ecb .dec data w hm, modeFn_ecb .dec data w hm]
    simp only [ecbResult, ecbDec, ← unpadIfEnabled_congr hB, ← hB, flatMap_blocks_congr hD]
  · rw [modeFn_cbc_dec data w hm, modeFn_cbc_dec data w hm, ← unpadIfEnabled_congr hB, ← hB,
      cbcDecLoop_congr hD _ (fun _ => length_of_mem_blocks) _]

/-! ### The byte loops -/

/-- While the register is `n` bytes, `f` and `g` do the same with a byte, and the register stays `n` bytes. -/
structure AgreeOnBlocks (n : Nat) (f g : Byte → Stream → Byte × Stream) : Prop where
  agree : ∀ x w, w.iv.length = n → f x w = g x w
  keeps : ∀ x w, w.iv.length = n → (f x w).2.iv.length = n

theorem AgreeOnBlocks.forEachByte_eq {n : Nat} {f g : Byte → Stream → Byte × Stream} (h : AgreeOnBlocks n f g)
    (data : ByteString) (w : Stream) (hw : w.iv.length = n) : forEachByte f data w = forEachByte g data w := by
  induction data generalizing w with
  | nil => rfl
  | cons x xs ih => rw [forEachByte_cons, forEachByte_cons, ← h.agree x w hw, ih _ (h.keeps x w hw)]

/-- Two modes under the buffer discipline agree when they generate, advance and feed back alike from a register of `B`
bytes. -/
theorem BufferedMode.agreeOnBlocks {M N : BufferedMode} {P Q : Params} (hB : P.blockSize = Q.blockSize)
    (hgen : ∀ iv, iv.length = P.blockSize → M.gen iv = N.gen iv)
    (hnext : ∀ iv, iv.length = P.blockSize → M.next iv = N.next iv)
    (hfeed : M.feed = N.feed) (hnextLen : ∀ iv, iv.length = P.blockSize → (M.next iv).length = P.blockSize)
    (hfeedLen : ∀ p x y iv, (M.feed p x y iv).length = iv.length) :
    AgreeOnBlocks P.blockSize (M.byte P) (N.byte Q) where
  agree x w hw := by
    have hrefill : M.refill w = N.refill w := by simp only [BufferedMode.refill, hgen _ hw, hnext _ hw]
    simp only [BufferedMode.byte, hrefill, hfeed, advance, hB]
  keeps x w hw := by
    rw [BufferedMode.byte, advance_iv, hfeedLen, BufferedMode.refill]
    split
    · exact hnextLen _ hw
    · exact hw

/-- `Inc` reads of the parameters the block size only. -/
theorem inc_congr {P Q : Params} (hB : P.blockSize = Q.blockSize) (v : ByteString) : inc P v = inc Q v := by
  simp only [inc, hB]

theorem inc_length (P : Params) (v : ByteString) : (inc P v).length = P.blockSize := beBytes_length _ _

section
variable {P Q : Params} {key : ByteString}
  (hE : ∀ b : ByteString, b.length = P.blockSize → P.encryptBlock key b = Q.encryptBlock key b)
include hE

/-- The window of CFB8 loses one byte and takes one in (42_feedback_modes.md R183). -/
theorem agreeOnBlocks_cfb8Byte (d : Dir) : AgreeOnBlocks P.blockSize (cfb8Byte P key d) (cfb8Byte Q key d) where
  agree x w hw := by simp only [cfb8Byte, cfb8KeyByte, hE _ hw]
  keeps x w hw := by
    have hpos := P.blockSize_pos
    simp only [cfb8Byte, shiftWindow_iv, List.length_append, List.length_drop, List.length_singleton]
    omega

variable (hB : P.blockSize = Q.blockSize)
include hB

theorem agreeOnBlocks_cfbByte (d : Dir) : AgreeOnBlocks P.blockSize (cfbByte P key d) (cfbByte Q key d) := by
  rw [cfbByte_eq, cfbByte_eq]
  exact BufferedMode.agreeOnBlocks hB hE (fun _ _ => rfl) rfl (fun _ h => h) (fun _ _ _ _ => List.length_set)

theorem agreeOnBlocks_ofbByte : AgreeOnBlocks P.blockSize (ofbByte P key) (ofbByte Q key) := by
  rw [ofbByte_eq, ofbByte_eq]
  exact BufferedMode.agreeOnBlocks hB hE hE rfl (P.encryptBlock_length key) (fun _ _ _ _ => rfl)

theorem agreeOnBlocks_ctrByte : AgreeOnBlocks P.blockSize (ctrByte P key) (ctrByte Q key) := by
  rw [ctrByte_eq, ctrByte_eq]
  exact BufferedMode.agreeOnBlocks hB hE (fun _ _ => inc_congr hB _) rfl (fun _ _ => inc_length P _)
    (fun _ _ _ _ => rfl)

end

/-- Loops that agree make modes that agree. -/
theorem modeFn_congr_of_loopsOver {P Q : Params} {s : State} {d : Dir} {f g : Byte → Stream → Byte × Stream}
    (hf : LoopsOver P s d f) (hg : LoopsOver Q s d g) (h : AgreeOnBlocks P.blockSize f g) (data : ByteString)
    {w : Stream} (hw : w.iv.length = P.blockSize) : modeFn P s d data w = modeFn Q s d data w := by
  rw [hf, hg, h.forEachByte_eq data w hw]

/-- CFB, CFB8, OFB and CTR call `E` only, in both directions. -/
theorem modeFn_feedback_congr {P Q : Params} {s : State} (d : Dir) (data : ByteString) {w : Stream}
    (hB : P.blockSize = Q.blockSize) (hw : w.iv.length = P.blockSize)
    (hE : ∀ b : ByteString, b.length = P.blockSize → P.encryptBlock s.key b = Q.encryptBlock s.key b)
    (hm : s.mode ∈ [Mode.cfb, .cfb8, .ofb, .ctr]) : modeFn P s d data w = modeFn Q s d data w := by
  obtain hm | hm | hm | hm : s.mode = .cfb ∨ s.mode = .cfb8 ∨ s.mode = .ofb ∨ s.mode = .ctr := by simpa using hm
  · exact modeFn_congr_of_loopsOver (loopsOver_cfb P d hm) (loopsOver_cfb Q d hm) (agreeOnBlocks_cfbByte hE hB d)
      data hw
  · exact modeFn_congr_of_loopsOver (loopsOver_cfb8 P d hm) (loopsOver_cfb8 Q d hm) (agreeOnBlocks_cfb8Byte hE d)
      data hw
  · exact modeFn_congr_of_loopsOver (loopsOver_ofb P d hm) (loopsOver_ofb Q d hm) (agreeOnBlocks_ofbByte hE hB)
      data hw
  · exact modeFn_congr_of_loopsOver (loopsOver_ctr P d hm) (loopsOver_ctr Q d hm) (agreeOnBlocks_ctrByte hE hB)
      data hw

/-- Settles O50: mode by mode, for STREAM by its equation. -/
theorem modesCallTheirPrimitive : Obligations.ModesCallTheirPrimitive := by
  intro P Q s data w hB hw
  refine ⟨fun hE => ⟨fun d hm => modeFn_feedback_congr d data hB hw.iv_length hE hm,
    fun hm => modeFn_block_enc_congr data hB hw.iv_length hE hm⟩,
    fun hD hm => modeFn_block_dec_congr data w hB hD hm, fun hinit hxform hm d => ?_⟩
  rw [modeFn_stream d data w hm, modeFn_stream d data w hm, hinit, hxform]

end Sys2Proof.Proofs
end

section
/-! PROOFS. The configuration commands with their frames (46_configuration.md R270 to R273): each command has one result by
whether it accepts its operand. An accepted one leaves the setup due, which overwrites both streams before a data command
reads them. -/

namespace Sys2Proof.Proofs

open Sys2Proof.Machine Sys2Proof.Safety

/-! ### The result of each branch -/

/-- What SET_KEY accepts: a supported length, and the fixed one once SET_KEYLEN has fixed one (R270). -/
theorem acceptsKeyLength_iff {P : Params} {s : State} {n : Nat} :
    acceptsKeyLength P s n = true ↔ n ∈ P.keyLengths ∧ (s.keylenLock = true → n = s.keyLen) := by
  cases hlock : s.keylenLock <;> simp [acceptsKeyLength, hlock]

theorem commandResult_setKey_of_accepts {P : Params} {k : ByteString} {s : State}
    (h : acceptsKeyLength P s k.length = true) :
    commandResult P (.setKey k) s =
      .ok ([], { s with key := k, keyLen := k.length, keySet := true, changed := true }) :=
  if_pos h

theorem commandResult_setKey_of_not_accepts {P : Params} {k : ByteString} {s : State}
    (h : ¬ acceptsKeyLength P s k.length = true) : commandResult P (.setKey k) s = .error .lengthError :=
  if_neg h

theorem commandResult_setKeylen_of_mem {P : Params} {n : Nat} (s : State) (h : n ∈ P.keyLengths) :
    commandResult P (.setKeylen n) s = .ok ([], { s with keyLen := n, keylenLock := true, changed := true }) :=
  if_pos h

theorem commandResult_setKeylen_of_not_mem {P : Params} {n : Nat} (s : State) (h : n ∉ P.keyLengths) :
    commandResult P (.setKeylen n) s = .error .lengthError :=
  if_neg h

/-- A code names the mode it is the code of (30_encoding.md R104). -/
theorem modeOfCode_modeCode (m : Mode) : modeOfCode (modeCode m) = some m := by
  cases m <;> rfl

theorem selectedMode_modeCode (P : Params) (m : Mode) :
    selectedMode P (modeCode m) = if m ∈ P.supportedModes then some m else none := by
  simp only [selectedMode, modeOfCode_modeCode]

theorem commandResult_setMode_of_mem {P : Params} {m : Mode} (s : State) (h : m ∈ P.supportedModes) :
    commandResult P (.setMode (modeCode m)) s =
      .ok ([], { s with mode := m, modeValid := true, changed := true }) := by
  simp only [commandResult, setModeCmd, selectedMode_modeCode, if_pos h]

theorem commandResult_setMode_of_not_mem {P : Params} {m : Mode} (s : State) (h : m ∉ P.supportedModes) :
    commandResult P (.setMode (modeCode m)) s = .error .unsupportedModeError := by
  simp only [commandResult, setModeCmd, selectedMode_modeCode, if_neg h]

/-! ### The effects -/

/-- Settles O18: the result by `acceptsKeyLength`, taken apart into the length and the lock. -/
theorem setKeyEffect : Obligations.SetKeyEffect := by
  intro k s
  refine ⟨fun hlen hlock => ?_, fun hbad => ?_⟩
  · exact exec_of_ok (commandResult_setKey_of_accepts (acceptsKeyLength_iff.mpr ⟨hlen, hlock⟩))
  · refine exec_of_error (commandResult_setKey_of_not_accepts fun haccepts => ?_)
    obtain ⟨hlen, hlock⟩ := acceptsKeyLength_iff.mp haccepts
    obtain hunsupported | ⟨hlocked, hne⟩ := hbad
    · exact hunsupported hlen
    · exact hne (hlock hlocked)

/-- Settles O19: the result by whether the mode is supported; which modes are is the law of the kind of primitive. -/
theorem setModeEffect : Obligations.SetModeEffect := by
  intro s
  refine ⟨fun m hm => exec_of_ok (commandResult_setMode_of_mem s hm),
    fun m hm => exec_of_error (commandResult_setMode_of_not_mem s hm), exec_setMode_reserved s, ?_⟩
  cases hkind : Config.params.primitive with
  | block =>
    have hnot : Mode.stream ∉ [Mode.ecb, .cbc, .cfb, .cfb8, .ofb, .ctr] := by decide
    exact fun hm => hnot (Config.params.supportedModes_block hkind .stream hm)
  | stream => exact Config.params.supportedModes_stream hkind

/-- Settles O20: the result by whether the length is supported. -/
theorem setKeylenEffect : Obligations.SetKeylenEffect := fun _ s =>
  ⟨fun hn => exec_of_ok (commandResult_setKeylen_of_mem s hn),
    fun hn => exec_of_error (commandResult_setKeylen_of_not_mem s hn)⟩

/-! ### The restart -/

/-- SET_KEY, SET_MODE and SET_KEYLEN leave the setup due whenever they succeed, whatever the value written (R273). -/
theorem changed_of_configuration {P : Params} {i : Instr} {s s' : State} {out : ByteString}
    (hi : (∃ k, i = .setKey k) ∨ (∃ m, i = .setMode m) ∨ (∃ n, i = .setKeylen n))
    (h : commandResult P i s = .ok (out, s')) : s'.changed = true := by
  obtain ⟨k, rfl⟩ | ⟨m, rfl⟩ | ⟨n, rfl⟩ := hi
  · simp only [commandResult, setKeyCmd] at h
    split at h <;> cases h
    rfl
  · simp only [commandResult, setModeCmd] at h
    split at h <;> cases h
    rfl
  · simp only [commandResult, setKeylenCmd] at h
    split at h <;> cases h
    rfl

/-- The setup overwrites both streams and reads neither (40_crypt.md R138). -/
theorem setup_setStream (P : Params) (d : Dir) (w : Stream) (s : State) : setup P (s.setStream d w) = setup P s := by
  cases d <;> rfl

/-- With the setup due, neither stream has an influence on what a data command answers and writes: no check reads a stream,
and all after the checks is a function of the state that the setup leaves. -/
theorem crypt_setStream_of_changed (P : Params) (d d' : Dir) (data : ByteString) (w : Stream) {s : State}
    (hc : s.changed = true) : crypt P d data (s.setStream d' w) = crypt P d data s := by
  have hsetup : lazySetup P (s.setStream d' w) = lazySetup P s := by
    rw [lazySetup_of_changed P hc, lazySetup_of_changed P ((setStream_changed s d' w).trans hc), setup_setStream]
  simp only [crypt, cryptCheck_setStream, cryptBody, hsetup]

/-- The same of a data command that answers OK; one that answers an error leaves the streams as they were (R304). -/
theorem exec_crypt_setStream_of_changed {d : Dir} {data out : ByteString} {s u : State} (d' : Dir) (w : Stream)
    (hc : s.changed = true) (hu : exec (cryptInstr d data) s = .next u) (ha : u.answers = s.answers ++ [⟨.ok, out⟩]) :
    exec (cryptInstr d data) (s.setStream d' w) = .next u := by
  obtain ⟨s', hr, rfl⟩ := exec_ok hu ha
  apply exec_of_ok
  rw [commandResult_cryptInstr] at hr ⊢
  rw [crypt_setStream_of_changed _ d d' data w hc, hr]

/-- Settles O25: `CHANGED` is written by each of the three, and with it set the two streams can be replaced in turn. -/
theorem configurationRestartsStreams : Obligations.ConfigurationRestartsStreams := by
  intro i s t hi ht ha
  obtain ⟨s', hr, rfl⟩ := exec_ok ht ha
  have hc : (s'.answer .ok []).changed = true :=
    (answer_changed s' .ok []).trans (changed_of_configuration hi hr)
  refine ⟨hc, fun d data out u hu hau w1 w2 => ?_⟩
  have henc := exec_crypt_setStream_of_changed .enc w1 hc hu hau
  exact exec_crypt_setStream_of_changed .dec w2 ((setStream_changed _ .enc w1).trans hc) henc hau

end Sys2Proof.Proofs
end

section
/-! PROOFS. Which errors arise, and where (60_exceptions.md R302 to R308). Each error of a command is traced to the one check
that raises it: a failing result is SET_KEY's, SET_KEYLEN's or SET_IV's of a length, SET_MODE's of a mode, or a data command's
of its configuration, of its length or, past both, of `Unpad`. `IllegalCommand` is no command's result, so it is decode's. -/

namespace Sys2Proof.Proofs

open Sys2Proof.Machine Sys2Proof.Safety

/-! ### The commands that can fail -/

/-- What a failing result is: the error of an operand, or whatever `Crypt` failed with. The other commands have no error. -/
theorem commandResult_error {P : Params} {i : Instr} {s : State} {e : ErrorKind} (h : commandResult P i s = .error e) :
    (e = .lengthError ∧ ((∃ k, i = .setKey k ∧ ¬ acceptsKeyLength P s k.length = true) ∨
      (∃ n, i = .setKeylen n ∧ n ∉ P.keyLengths) ∨ (∃ v, i = .setIv v ∧ v.length ≠ P.blockSize))) ∨
    (e = .unsupportedModeError ∧ ∃ code, i = .setMode code ∧ selectedMode P code = none) ∨
    (∃ d data, i = cryptInstr d data ∧ crypt P d data s = .error e) := by
  cases i with
  | setKey k =>
    simp only [commandResult, setKeyCmd] at h
    split at h <;> cases h
    exact .inl ⟨rfl, .inl ⟨k, rfl, ‹_›⟩⟩
  | setKeylen n =>
    simp only [commandResult, setKeylenCmd] at h
    split at h <;> cases h
    exact .inl ⟨rfl, .inr (.inl ⟨n, rfl, ‹_›⟩)⟩
  | setIv v =>
    simp only [commandResult, setIvCmd] at h
    split at h <;> cases h
    exact .inl ⟨rfl, .inr (.inr ⟨v, rfl, ‹_›⟩)⟩
  | setMode code =>
    simp only [commandResult, setModeCmd] at h
    split at h <;> cases h
    exact .inr (.inl ⟨rfl, code, rfl, ‹_›⟩)
  | cbEnable =>
    simp only [commandResult, cbEnableCmd] at h
    split at h <;> cases h
  | cbDisable =>
    simp only [commandResult, cbDisableCmd] at h
    split at h <;> cases h
  | padEnable => cases h
  | padDisable => cases h
  | encrypt data => exact .inr (.inr ⟨.enc, data, rfl, h⟩)
  | decrypt data => exact .inr (.inr ⟨.dec, data, rfl, h⟩)

/-! ### The errors of a data command -/

/-- A data command fails by its first failing check or, when all pass, by its mode (40_crypt.md R132). -/
theorem crypt_error_iff {P : Params} {d : Dir} {data : ByteString} {s : State} {e : ErrorKind} :
    crypt P d data s = .error e ↔ cryptCheck P d data s = some e ∨
      (cryptCheck P d data s = none ∧ modeFn P s d data (startStream P d s) = .error e) := by
  unfold crypt
  cases cryptCheck P d data s with
  | some e' => simp
  | none =>
    rw [cryptBody_eq]
    cases modeFn P s d data (startStream P d s) <;> simp

/-- An error other than `PaddingError` comes from the checks, since a mode fails only by `Unpad`. -/
theorem crypt_error_iff_check {P : Params} {d : Dir} {data : ByteString} {s : State} {e : ErrorKind}
    (he : e ≠ .paddingError) : crypt P d data s = .error e ↔ cryptCheck P d data s = some e := by
  rw [crypt_error_iff]
  exact or_iff_left fun ⟨_, hmode⟩ => he (modeFn_error hmode).1

/-- The checks fail with two errors only (40_crypt.md R134 to R137). -/
theorem cryptCheck_error {P : Params} {d : Dir} {data : ByteString} {s : State} {e : ErrorKind}
    (h : cryptCheck P d data s = some e) : e = .configurationError ∨ e = .lengthError := by
  by_cases hr : Ready s
  · by_cases hl : LengthOk P d data s
    · rw [cryptCheck_none_iff.mpr ⟨hr, hl⟩] at h
      cases h
    · rw [cryptCheck_length_iff.mpr ⟨hr, hl⟩] at h
      cases h
      exact .inr rfl
  · rw [cryptCheck_configuration_iff.mpr hr] at h
    cases h
    exact .inl rfl

/-- What a data command can fail with (R302, R303, R305). -/
theorem crypt_error {P : Params} {d : Dir} {data : ByteString} {s : State} {e : ErrorKind}
    (h : crypt P d data s = .error e) : e = .configurationError ∨ e = .lengthError ∨ e = .paddingError := by
  obtain hcheck | ⟨-, hmode⟩ := crypt_error_iff.mp h
  · obtain he | he := cryptCheck_error hcheck
    · exact .inl he
    · exact .inr (.inl he)
  · exact .inr (.inr (modeFn_error hmode).1)

theorem usesIv_iff (m : Mode) : usesIv m = true ↔ m ∈ [Mode.cbc, .cfb, .cfb8, .ofb, .ctr] := by
  cases m <;> decide

/-- A state is not `Ready` by its mode, its key or its IV (40_crypt.md R134, R135, R136). -/
theorem not_ready_iff (s : State) : ¬ Ready s ↔
    s.modeValid = false ∨ (s.keySet = false ∨ s.key.length ≠ s.keyLen) ∨
      (s.mode ∈ [Mode.cbc, .cfb, .cfb8, .ofb, .ctr] ∧ s.ivSet = false) := by
  rw [← usesIv_iff]
  constructor
  · intro hnot
    by_contra hnone
    simp only [not_or, not_and, Bool.not_eq_false, ne_eq, not_not] at hnone
    obtain ⟨hmode, ⟨hset, hlen⟩, hiv⟩ := hnone
    exact hnot ⟨hmode, hset, hlen, hiv⟩
  · rintro (hmode | (hset | hlen) | ⟨huses, hiv⟩) hr
    · simp [hr.mode] at hmode
    · simp [hr.keySet] at hset
    · exact hlen hr.keyLen
    · simp [hr.iv huses] at hiv

/-- Settles O28: of the failing results only that of a data command's configuration checks is this error. -/
theorem configurationErrorExactly : Obligations.ConfigurationErrorExactly := by
  intro i s
  constructor
  · intro h
    obtain ⟨⟨⟩, -⟩ | ⟨⟨⟩, -⟩ | ⟨d, data, rfl, hc⟩ := commandResult_error (exec_raises_iff.mp h)
    have hcheck := (crypt_error_iff_check (by decide)).mp hc
    exact ⟨⟨d, data, rfl⟩, (not_ready_iff s).mp (cryptCheck_configuration_iff.mp hcheck)⟩
  · rintro ⟨⟨d, data, rfl⟩, hbad⟩
    apply exec_of_error
    rw [commandResult_cryptInstr, crypt_error_iff_check (by decide), cryptCheck_configuration_iff]
    exact (not_ready_iff s).mpr hbad

/-- SET_KEY refuses a length that is not supported or not the fixed one (46_configuration.md R270). -/
theorem not_acceptsKeyLength_iff {P : Params} {s : State} {n : Nat} : ¬ acceptsKeyLength P s n = true ↔
    n ∉ P.keyLengths ∨ (s.keylenLock = true ∧ n ≠ s.keyLen) := by
  rw [acceptsKeyLength_iff, not_and_or, Classical.not_imp]

/-- Settles O29: the failing results of SET_KEY, SET_KEYLEN and SET_IV, and of a data command's last check. -/
theorem lengthErrorExactly : Obligations.LengthErrorExactly := by
  intro i s
  constructor
  · intro h
    obtain ⟨-, ⟨k, rfl, hk⟩ | hn | hv⟩ | ⟨⟨⟩, -⟩ | ⟨d, data, rfl, hc⟩ := commandResult_error (exec_raises_iff.mp h)
    · exact .inl ⟨k, rfl, not_acceptsKeyLength_iff.mp hk⟩
    · exact .inr (.inl hn)
    · exact .inr (.inr (.inl hv))
    · have hcheck := (crypt_error_iff_check (by decide)).mp hc
      exact .inr (.inr (.inr ⟨d, data, rfl, cryptCheck_length_iff.mp hcheck⟩))
  · rintro (⟨k, rfl, hk⟩ | ⟨n, rfl, hn⟩ | ⟨v, rfl, hv⟩ | ⟨d, data, rfl, hbad⟩) <;> apply exec_of_error
    · exact commandResult_setKey_of_not_accepts (not_acceptsKeyLength_iff.mpr hk)
    · exact commandResult_setKeylen_of_not_mem s hn
    · exact commandResult_setIv_of_length_ne s hv
    · rw [commandResult_cryptInstr, crypt_error_iff_check (by decide), cryptCheck_length_iff]
      exact hbad

/-! ### SET_MODE -/

/-- Seven of the eight codes are codes of a mode (30_encoding.md R104). -/
theorem code_reserved_or_modeCode (code : BitVec 3) : code = 7 ∨ ∃ m, code = modeCode m := by
  have hcodes : ∀ code : BitVec 3, code = 7 ∨ code = modeCode ((modeOfCode code).getD .ecb) := by decide
  exact (hcodes code).imp_right fun h => ⟨_, h⟩

/-- Settles O30: SET_MODE's result for the reserved code and for the code of each mode. -/
theorem unsupportedModeErrorExactly : Obligations.UnsupportedModeErrorExactly := by
  intro i s
  constructor
  · intro h
    obtain ⟨⟨⟩, -⟩ | ⟨-, code, rfl, hnone⟩ | ⟨d, data, -, hc⟩ := commandResult_error (exec_raises_iff.mp h)
    · obtain rfl | ⟨m, rfl⟩ := code_reserved_or_modeCode code
      · exact .inl rfl
      · refine .inr ⟨m, fun hm => ?_, rfl⟩
        rw [selectedMode_modeCode, if_pos hm] at hnone
        cases hnone
    · obtain ⟨⟨⟩⟩ | ⟨⟨⟩⟩ | ⟨⟨⟩⟩ := crypt_error hc
  · rintro (rfl | ⟨m, hm, rfl⟩)
    · exact exec_setMode_reserved s
    · exact exec_of_error (commandResult_setMode_of_not_mem s hm)

/-! ### Padding -/

/-- `Unpad` rejects a string by its last byte alone (43_padding.md R212). -/
theorem unpad_error_iff {P : Params} {y : ByteString} : unpad P y = .error .paddingError ↔
    y.getLast? = none ∨ ∃ n, y.getLast? = some n ∧ (n = 0 ∨ n.toNat > P.blockSize) := by
  unfold unpad
  cases y.getLast? with
  | none => simp
  | some n =>
    have hzero : n.toNat = 0 ↔ n = 0 := BitVec.toNat_inj (y := 0)
    simp [hzero, or_iff_not_imp_left]

/-- ECB and CBC DECRYPT make one string and one stream of their data, whatever `PAD_EN` is, and end in `Unpad` of it or
its bypass (41_block_modes.md R161, R163). -/
theorem modeFn_dec_setPadEn (P : Params) {s : State} (data : ByteString) (w : Stream)
    (hm : s.mode = .ecb ∨ s.mode = .cbc) :
    ∃ y v, ∀ b, modeFn P (setPadEn b s) .dec data w = (unpadIfEnabled P b y).map (·, v) := by
  obtain hm | hm := hm
  · exact ⟨(blocks P.blockSize data).flatMap (P.decryptBlock s.key), w,
      fun b => modeFn_ecb (s := setPadEn b s) .dec data w hm⟩
  · let r := cbcDecLoop P s.key (blocks P.blockSize data) w.iv
    exact ⟨r.1, { w with iv := r.2 }, fun b => modeFn_cbc_dec (s := setPadEn b s) data w hm⟩

/-- With `PAD_EN = 1` they fail exactly when `Unpad` rejects what they give with `PAD_EN = 0`. -/
theorem modeFn_dec_paddingError_iff {P : Params} {s : State} {data : ByteString} {w : Stream}
    (hm : s.mode = .ecb ∨ s.mode = .cbc) (hp : s.padEn = true) :
    modeFn P s .dec data w = .error .paddingError ↔
      ∃ y v, modeFn P (setPadEn false s) .dec data w = .ok (y, v) ∧ unpad P y = .error .paddingError := by
  obtain ⟨y, v, hy⟩ := modeFn_dec_setPadEn P data w hm
  have hpad : modeFn P s .dec data w = (unpad P y).map (·, v) := by
    rw [← show setPadEn true s = s by rw [setPadEn, ← hp], hy true]
    rfl
  have hbypass : modeFn P (setPadEn false s) .dec data w = .ok (y, v) := hy false
  rw [hpad, hbypass]
  constructor
  · intro h
    refine ⟨y, v, rfl, ?_⟩
    cases hu : unpad P y with
    | error e => rw [hu] at h; cases h; rfl
    | ok out => rw [hu] at h; cases h
  · rintro ⟨_, _, ⟨⟩, hbad⟩
    rw [hbad]
    rfl

/-- No check of a DECRYPT reads `PAD_EN` (40_crypt.md R137). -/
theorem cryptCheck_dec_setPadEn (P : Params) (data : ByteString) (b : Bool) (s : State) :
    cryptCheck P .dec data (setPadEn b s) = cryptCheck P .dec data s := rfl

/-- `Crypt` fails by `Unpad` exactly when it is a DECRYPT that pads and what it gives with `PAD_EN = 0` is rejected. -/
theorem crypt_paddingError_iff {P : Params} {d : Dir} {data : ByteString} {s : State} :
    crypt P d data s = .error .paddingError ↔ d = .dec ∧ (s.mode = .ecb ∨ s.mode = .cbc) ∧ s.padEn = true ∧
      ∃ y s', crypt P .dec data (setPadEn false s) = .ok (y, s') ∧ unpad P y = .error .paddingError := by
  constructor
  · intro h
    obtain hcheck | ⟨hcheck, hmode⟩ := crypt_error_iff.mp h
    · obtain ⟨⟨⟩⟩ | ⟨⟨⟩⟩ := cryptCheck_error hcheck
    obtain ⟨-, rfl, hm, hp⟩ := modeFn_error hmode
    obtain ⟨y, v, hy, hbad⟩ := (modeFn_dec_paddingError_iff hm hp).mp hmode
    obtain ⟨hr, hl⟩ := cryptCheck_none_iff.mp ((cryptCheck_dec_setPadEn P data false s).trans hcheck)
    exact ⟨rfl, hm, hp, y, _, crypt_of_modeFn hr hl hy, hbad⟩
  · rintro ⟨rfl, hm, hp, y, s', hok, hbad⟩
    obtain ⟨hr, hl, v, hy, -⟩ := crypt_ok hok
    have hcheck := (cryptCheck_dec_setPadEn P data false s).symm.trans (cryptCheck_none_iff.mpr ⟨hr, hl⟩)
    exact crypt_error_iff.mpr (.inr ⟨hcheck, (modeFn_dec_paddingError_iff hm hp).mpr ⟨y, v, hy, hbad⟩⟩)

/-- A command answers OK with an output exactly when its result is that output. -/
theorem exec_ok_iff {i : Instr} {s : State} {out : ByteString} :
    (∃ t, exec i s = .next t ∧ t.answers = s.answers ++ [⟨.ok, out⟩]) ↔
      ∃ s', commandResult Config.params i s = .ok (out, s') := by
  constructor
  · rintro ⟨t, ht, ha⟩
    obtain ⟨s', hr, -⟩ := exec_ok ht ha
    exact ⟨s', hr⟩
  · rintro ⟨s', hr⟩
    exact ⟨_, exec_of_ok hr, by rw [answer_answers, (commandResult_keeps_host hr).1]⟩

/-- Settles O31: only a data command has this error, by `crypt_paddingError_iff`. -/
theorem paddingErrorExactly : Obligations.PaddingErrorExactly := by
  intro i s
  constructor
  · intro h
    obtain ⟨⟨⟩, -⟩ | ⟨⟨⟩, -⟩ | ⟨d, data, rfl, hc⟩ := commandResult_error (exec_raises_iff.mp h)
    obtain ⟨rfl, hm, hp, y, s', hok, hbad⟩ := crypt_paddingError_iff.mp hc
    obtain ⟨t, ht, ha⟩ := exec_ok_iff.mpr ⟨s', commandResult_cryptInstr _ .dec data _ ▸ hok⟩
    exact ⟨data, rfl, hm, hp, t, y, ht, ha, unpad_error_iff.mp hbad⟩
  · rintro ⟨data, rfl, hm, hp, t, y, ht, ha, hbad⟩
    obtain ⟨s', hok⟩ := exec_ok_iff.mp ⟨t, ht, ha⟩
    exact exec_of_error (crypt_paddingError_iff.mpr ⟨rfl, hm, hp, y, s', hok, unpad_error_iff.mpr hbad⟩)

/-! ### The step -/

/-- No command's result is `IllegalCommand` (R307). -/
theorem commandResult_ne_illegalCommand (P : Params) (i : Instr) (s : State) :
    commandResult P i s ≠ .error .illegalCommand := by
  intro h
  obtain ⟨⟨⟩, -⟩ | ⟨⟨⟩, -⟩ | ⟨d, data, -, hc⟩ := commandResult_error h
  obtain ⟨⟨⟩⟩ | ⟨⟨⟩⟩ | ⟨⟨⟩⟩ := crypt_error hc

/-- Settles O32: a command that decodes has another answer, and one that does not is answered by `raise`. -/
theorem illegalCommandOnlyByDecode : Obligations.IllegalCommandOnlyByDecode := by
  intro s t c rest hp ht
  constructor
  · intro ha
    by_contra hgood
    obtain ⟨i, hi⟩ := (decode_isOk_iff c).mpr hgood
    exact commandResult_ne_illegalCommand _ i _ (exec_error ((step_of_decode_ok hp hi).symm.trans ht) ha).1
  · intro hbad
    obtain ⟨e, he⟩ := decode_error_of_failsDecodeCheck (c := c) hbad
    cases (step_of_decode_error hp he).symm.trans ht
    rfl

/-- Settles O10: decode's error and a command's are both taken by `raise`, which leaves every register. -/
theorem errorsChangeNothing : Obligations.ErrorsChangeNothing := by
  intro s t c rest a hp ht ha hstatus
  cases hd : decode c with
  | error e =>
    cases (step_of_decode_error hp hd).symm.trans ht
    obtain rfl : _ = a := by simpa using ha
    exact ⟨rfl, rfl⟩
  | ok i =>
    obtain ⟨status, out⟩ := a
    cases status with
    | ok => exact absurd rfl hstatus
    | error e =>
      obtain ⟨-, rfl, rfl⟩ := exec_error ((step_of_decode_ok hp hd).symm.trans ht) ha
      exact ⟨rfl, rfl⟩

end Sys2Proof.Proofs
end

section
/-! PROOFS. R330: the reset values. Both directions start from the same streaming-state set, so what reset gives one
stream it gives the other. -/

namespace Sys2Proof.Proofs

open Sys2Proof.Machine Sys2Proof.Safety

/-- `S[d]` at reset does not depend on the direction (R47 to R50, R330). -/
@[simp] theorem stream_reset (d : Dir) : State.reset.stream d = Stream.reset := by cases d <;> rfl

/-- Settles O12: each register outside the streams is a field of `State.reset`, and both streams are `Stream.reset`. -/
theorem resetValues : Obligations.ResetValues := by
  have hstreams : ∀ d, (State.reset.stream d).iv = List.replicate Config.params.blockSize 0 ∧
      (State.reset.stream d).ks = List.replicate Config.params.blockSize 0 ∧
      (State.reset.stream d).pos = 0 ∧ (State.reset.stream d).sst = none := fun d => by
    rw [stream_reset]
    exact ⟨rfl, rfl, rfl, rfl⟩
  exact ⟨rfl, rfl, rfl, rfl, rfl, rfl, rfl, rfl, rfl, rfl, rfl, rfl, rfl, hstreams⟩

end Sys2Proof.Proofs
end

section
/-! PROOFS. The round trip of the encoding (30_encoding.md R100 to R108): an encoded command passes every check of decode and
selects its own row, and a word that decodes is the encoding of what it decodes to. With it the two laws of a step. -/

namespace Sys2Proof.Proofs

open Sys2Proof.Machine

/-- The opcode of an encoded command selects the command's row, which reads its operand back (R107). -/
theorem decodeRow_encode {i : Instr} (hwf : i.wf = true) : decodeRow (encode i) = some i := by
  cases i with
  | setKeylen n =>
    have hn : n < 65536 := of_decide_eq_true hwf
    simp [decodeRow, encode, Instr.opc, hn]
  | setKey _ | setIv _ | setMode _ | cbEnable | cbDisable | padEnable | padDisable | encrypt _ | decrypt _ =>
    simp [decodeRow, encode, Instr.opc]

/-- The encoder leaves at 0 every field that its command does not read, and writes no payload that it does not take. -/
theorem not_failsDecodeCheck_encode (i : Instr) : ¬ FailsDecodeCheck (encode i) := by
  cases i <;> simp [FailsDecodeCheck, encode, Instr.opc]

theorem decode_encode {i : Instr} (hwf : i.wf = true) : decode (encode i) = .ok i :=
  decode_of_decodeRow (decodeRow_encode hwf) (not_failsDecodeCheck_encode i)

/-- Settles O2: the row of the opcode gives the command back, and no check fails. -/
theorem decodeOfEncode : Obligations.DecodeOfEncode := fun _ => decode_encode

/-- Settles O3: row by row, the checks of decode leave no word but the encoder's. -/
theorem encodeOfDecode : Obligations.EncodeOfDecode := fun _ _ => encode_of_decode

/-- Settles O1: each word evaluates to its fields, and those of the commands with data pass the checks whatever the
payload. -/
theorem workedWordsDecode : Obligations.WorkedWordsDecode := by
  refine ⟨fun d => ?_, fun d => ?_, rfl, rfl, rfl, rfl, rfl, rfl, rfl, rfl, rfl, rfl, rfl, rfl, rfl, rfl, fun d => ?_,
    fun d => ?_⟩ <;>
    simp [decode, decodeRow, Word.opc, Word.modef, Word.rsv, Word.imm16, takesNoPayload]

/-- Settles O6: the step's equation for a command that decodes. -/
theorem stepRunsDecodedCommand : Obligations.StepRunsDecodedCommand := fun _ _ _ _ => step_of_decode_ok

/-- Settles O7: the step's equation with no command pending. -/
theorem stepWaitsForCommand : Obligations.StepWaitsForCommand := fun _ => step_of_pending_eq_nil

end Sys2Proof.Proofs
end

section
/-! PROOFS. What a successful command writes, said once for all ten commands, and the invariants read off it: the sticky flags
(70_reset_and_hazards.md R331) and where `BACKEND` is written (45_backend.md R250). -/

namespace Sys2Proof.Proofs

open Sys2Proof.Machine Sys2Proof.Safety

/-! ### What a successful command writes -/

/-- From `s`, command `i` succeeds with the output and the state written: one case per branch of a command that succeeds,
with what the branch requires. -/
inductive Succeeds (P : Params) (s : State) : Instr → ByteString → State → Prop where
  | setKey {k : ByteString} (haccepts : acceptsKeyLength P s k.length = true) :
      Succeeds P s (.setKey k) [] { s with key := k, keyLen := k.length, keySet := true, changed := true }
  | setIv {v : ByteString} (hlen : v.length = P.blockSize) :
      Succeeds P s (.setIv v) [] (resetStreams P { s with ivCfg := v, ivSet := true })
  | setMode {code : BitVec 3} {m : Mode} (hm : selectedMode P code = some m) :
      Succeeds P s (.setMode code) [] { s with mode := m, modeValid := true, changed := true }
  | setKeylen {n : Nat} (hn : n ∈ P.keyLengths) :
      Succeeds P s (.setKeylen n) [] { s with keyLen := n, keylenLock := true, changed := true }
  | cbEnableAgain (hon : s.cbEn = true) : Succeeds P s .cbEnable [] s
  | cbEnable (hoff : s.cbEn = false) :
      Succeeds P s .cbEnable []
        (drawBackend P { s with cbEn := true, enc := clearCursor s.enc, dec := clearCursor s.dec })
  | cbDisableAgain (hoff : s.cbEn = false) : Succeeds P s .cbDisable [] s
  | cbDisable (hon : s.cbEn = true) :
      Succeeds P s .cbDisable [] (drawBackend P (resetStreams P { s with cbEn := false }))
  | padEnable : Succeeds P s .padEnable [] (setPadEn true s)
  | padDisable : Succeeds P s .padDisable [] (setPadEn false s)
  | crypt {d : Dir} {data out : ByteString} {w : Stream} (hready : Ready s) (hlen : LengthOk P d data s)
      (hmode : modeFn P s d data (startStream P d s) = .ok (out, w)) :
      Succeeds P s (cryptInstr d data) out (writeBack d w (lazySetup P s))

theorem succeeds_crypt {P : Params} {d : Dir} {data out : ByteString} {s s' : State}
    (h : crypt P d data s = .ok (out, s')) : Succeeds P s (cryptInstr d data) out s' := by
  obtain ⟨hready, hlen, w, hmode, rfl⟩ := crypt_ok h
  exact .crypt hready hlen hmode

theorem succeeds_of_commandResult {P : Params} {i : Instr} {s s' : State} {out : ByteString}
    (h : commandResult P i s = .ok (out, s')) : Succeeds P s i out s' := by
  cases i with
  | setKey k =>
    simp only [commandResult, setKeyCmd] at h
    split at h <;> cases h
    exact .setKey ‹_›
  | setIv v =>
    simp only [commandResult, setIvCmd] at h
    split at h <;> cases h
    exact .setIv ‹_›
  | setMode code =>
    simp only [commandResult, setModeCmd] at h
    split at h <;> cases h
    exact .setMode ‹_›
  | setKeylen n =>
    simp only [commandResult, setKeylenCmd] at h
    split at h <;> cases h
    exact .setKeylen ‹_›
  | cbEnable =>
    cases hcb : s.cbEn with
    | true => rw [commandResult_cbEnable_of_cbEn_on P hcb] at h; cases h; exact .cbEnableAgain hcb
    | false => rw [commandResult_cbEnable_of_cbEn_off P hcb] at h; cases h; exact .cbEnable hcb
  | cbDisable =>
    cases hcb : s.cbEn with
    | true => rw [commandResult_cbDisable_of_cbEn_on P hcb] at h; cases h; exact .cbDisable hcb
    | false => rw [commandResult_cbDisable_of_cbEn_off P hcb] at h; cases h; exact .cbDisableAgain hcb
  | padEnable => cases h; exact .padEnable
  | padDisable => cases h; exact .padDisable
  | encrypt data => exact succeeds_crypt (d := .enc) h
  | decrypt data => exact succeeds_crypt (d := .dec) h

theorem commandResult_of_succeeds {P : Params} {i : Instr} {s s' : State} {out : ByteString}
    (h : Succeeds P s i out s') : commandResult P i s = .ok (out, s') := by
  cases h with
  | setKey haccepts => exact commandResult_setKey_of_accepts haccepts
  | setIv hlen => exact commandResult_setIv_of_length_eq s hlen
  | setMode hm => simp only [commandResult, setModeCmd, hm]
  | setKeylen hn => exact commandResult_setKeylen_of_mem s hn
  | cbEnableAgain hon => exact commandResult_cbEnable_of_cbEn_on P hon
  | cbEnable hoff => exact commandResult_cbEnable_of_cbEn_off P hoff
  | cbDisableAgain hoff => exact commandResult_cbDisable_of_cbEn_off P hoff
  | cbDisable hon => exact commandResult_cbDisable_of_cbEn_on P hon
  | padEnable => rfl
  | padDisable => rfl
  | crypt hready hlen hmode => rw [commandResult_cryptInstr, crypt_of_modeFn hready hlen hmode]

/-- The result of a command is an output with a state exactly when the command succeeds with them. -/
theorem commandResult_ok_iff {P : Params} {i : Instr} {s s' : State} {out : ByteString} :
    commandResult P i s = .ok (out, s') ↔ Succeeds P s i out s' :=
  ⟨succeeds_of_commandResult, commandResult_of_succeeds⟩

/-- What a command can do: raise an error, or succeed and answer OK. -/
theorem exec_cases {i : Instr} {s t : State} (h : exec i s = .next t) :
    (∃ e, commandResult Config.params i s = .error e ∧ t = raise e s) ∨
      ∃ out s', Succeeds Config.params s i out s' ∧ t = s'.answer .ok out := by
  cases hr : commandResult Config.params i s with
  | error e =>
    rw [exec_of_error hr] at h
    cases h
    exact .inl ⟨e, rfl, rfl⟩
  | ok p =>
    obtain ⟨out, s'⟩ := p
    rw [exec_of_ok hr] at h
    cases h
    exact .inr ⟨out, s', commandResult_ok_iff.mp hr, rfl⟩

/-- A relation between a state and a later one that asks nothing of the answers and the pending commands holds of every
step when it holds of every state and itself and of every command that succeeds. -/
theorem step_relation {R : State → State → Prop} (hrefl : ∀ s, R s s)
    (hanswer : ∀ s t status out, R s t → R s (t.answer status out))
    (hpending : ∀ s t rest, R { s with pending := rest } t → R s t)
    (hsucceeds : ∀ i s out t, Succeeds Config.params s i out t → R s t) {s t : State} (h : step s = .next t) : R s t := by
  obtain ⟨-, rfl⟩ | ⟨c, rest, i, -, -, hexec⟩ | ⟨c, rest, e, -, -, rfl⟩ := step_cases h
  · exact hrefl t
  · apply hpending _ _ rest
    obtain ⟨e, -, rfl⟩ | ⟨out, s', hs, rfl⟩ := exec_cases hexec
    · exact hanswer _ _ (.error e) [] (hrefl _)
    · exact hanswer _ _ .ok out (hsucceeds i _ out s' hs)
  · exact hpending _ _ rest (hanswer _ _ (.error .illegalCommand) [] (hrefl _))

/-! ### The sticky flags -/

/-- Each of `MODE_VALID`, `KEY_SET`, `IV_SET` and `KEYLEN_LOCK` that is 1 in `s` is 1 in `t` (R331). -/
def KeepsStickyFlags (s t : State) : Prop :=
  (s.modeValid = true → t.modeValid = true) ∧ (s.keySet = true → t.keySet = true) ∧
    (s.ivSet = true → t.ivSet = true) ∧ (s.keylenLock = true → t.keylenLock = true)

theorem KeepsStickyFlags.refl (s : State) : KeepsStickyFlags s s := ⟨id, id, id, id⟩

/-- A successful command writes 1 to a sticky flag, or does not write it. -/
theorem keepsStickyFlags_of_succeeds {P : Params} {i : Instr} {s t : State} {out : ByteString}
    (h : Succeeds P s i out t) : KeepsStickyFlags s t := by
  cases h with
  | setKey => exact ⟨id, fun _ => rfl, id, id⟩
  | setIv => exact ⟨id, id, fun _ => rfl, id⟩
  | setMode => exact ⟨fun _ => rfl, id, id, id⟩
  | setKeylen => exact ⟨id, id, id, fun _ => rfl⟩
  | cbEnableAgain | cbEnable | cbDisableAgain | cbDisable | padEnable | padDisable => exact .refl s
  | crypt => rw [writeBack_lazySetup_frame]; exact .refl s

/-- Settles O16: by the cases of a step, each of a successful command. -/
theorem onlyResetClearsStickyFlags : Obligations.OnlyResetClearsStickyFlags := fun _ _ =>
  step_relation .refl (fun _ _ _ _ h => h) (fun _ _ _ h => h) fun _ _ _ _ => keepsStickyFlags_of_succeeds

/-! ### Where `BACKEND` is written -/

@[simp] theorem writeBack_mode (d : Dir) (w : Stream) (s : State) : (writeBack d w s).mode = s.mode := by
  unfold writeBack; split <;> simp
@[simp] theorem writeBack_keyLen (d : Dir) (w : Stream) (s : State) : (writeBack d w s).keyLen = s.keyLen := by
  unfold writeBack; split <;> simp
@[simp] theorem writeBack_backend (d : Dir) (w : Stream) (s : State) : (writeBack d w s).backend = s.backend := by
  unfold writeBack; split <;> simp
@[simp] theorem writeBack_ksched (d : Dir) (w : Stream) (s : State) : (writeBack d w s).ksched = s.ksched := by
  unfold writeBack; split <;> simp
@[simp] theorem writeBack_draws (d : Dir) (w : Stream) (s : State) : (writeBack d w s).draws = s.draws := by
  unfold writeBack; split <;> simp

/-- The setup takes a backend that `Select` admits for the configuration (40_crypt.md R138). -/
theorem select_setup (P : Params) (s : State) : P.select s.mode s.keyLen s.cbEn (setup P s).backend = true :=
  select_drawBackend P s

/-- Settles O60: an error writes nothing, and of the successful commands only those that draw write `BACKEND`. -/
theorem backendWrittenAtSelectionPoints : Obligations.BackendWrittenAtSelectionPoints := by
  intro i s t ht
  obtain ⟨e, -, rfl⟩ | ⟨out, s', hs, rfl⟩ := exec_cases ht
  · exact .inl rfl
  cases hs with
  | setKey | setIv | setMode | setKeylen | cbEnableAgain | cbDisableAgain | padEnable | padDisable => exact .inl rfl
  | cbEnable hoff => exact .inr ⟨select_drawBackend Config.params { s with cbEn := true }, .inl ⟨rfl, hoff⟩⟩
  | cbDisable hon => exact .inr ⟨select_drawBackend Config.params { s with cbEn := false }, .inr (.inl ⟨rfl, hon⟩)⟩
  | @crypt d data _ w =>
    cases hc : s.changed with
    | false => exact .inl (by rw [lazySetup_of_unchanged _ hc]; simp)
    | true =>
      have hsel := select_setup Config.params s
      exact .inr ⟨by rw [lazySetup_of_changed _ hc]; simpa using hsel, .inr (.inr ⟨⟨d, data, rfl⟩, rfl⟩)⟩

end Sys2Proof.Proofs
end

section
/-! PROOFS. The invariant of the registers (10_state.md R33 to R53, 20_memory.md R84): reset meets it, and every step keeps it.
Each mode keeps the widths of the stream it runs on; the rest is read off what each command writes. -/

namespace Sys2Proof.Proofs

open Sys2Proof.Machine Sys2Proof.Safety

/-! ### The widths of a stream -/

theorem streamShape_fresh {P : Params} {s : State} (hiv : s.ivCfg.length = P.blockSize) : StreamShape P (fresh P s) :=
  ⟨hiv, List.length_replicate, P.blockSize_pos⟩

theorem streamShape_clearCursor {P : Params} {w : Stream} (hw : StreamShape P w) : StreamShape P (clearCursor w) :=
  ⟨hw.iv_length, hw.ks_length, P.blockSize_pos⟩

/-- A mode under the buffer discipline keeps the widths when it generates blocks, and the register stays a block. -/
theorem BufferedMode.streamShape_byte {M : BufferedMode} {P : Params}
    (hgen : ∀ iv : ByteString, iv.length = P.blockSize → (M.gen iv).length = P.blockSize)
    (hnext : ∀ iv : ByteString, iv.length = P.blockSize → (M.next iv).length = P.blockSize)
    (hfeed : ∀ p x y iv, (M.feed p x y iv).length = iv.length) (x : Byte) {w : Stream} (hw : StreamShape P w) :
    StreamShape P (M.byte P x w).2 := by
  have hrefill : StreamShape P (M.refill w) := by
    unfold BufferedMode.refill
    split
    · exact ⟨hnext _ hw.iv_length, hgen _ hw.iv_length, hw.pos_lt⟩
    · exact hw
  exact ⟨(hfeed _ _ _ _).trans hrefill.iv_length, hrefill.ks_length, Nat.mod_lt _ P.blockSize_pos⟩

theorem streamShape_cfbByte (P : Params) (key : ByteString) (d : Dir) (x : Byte) {w : Stream} (hw : StreamShape P w) :
    StreamShape P (cfbByte P key d x w).2 := by
  rw [cfbByte_eq]
  exact BufferedMode.streamShape_byte (P.encryptBlock_length key) (fun _ h => h) (fun _ _ _ _ => List.length_set) x hw

theorem streamShape_ofbByte (P : Params) (key : ByteString) (x : Byte) {w : Stream} (hw : StreamShape P w) :
    StreamShape P (ofbByte P key x w).2 := by
  rw [ofbByte_eq]
  exact BufferedMode.streamShape_byte (P.encryptBlock_length key) (P.encryptBlock_length key) (fun _ _ _ _ => rfl) x hw

theorem streamShape_ctrByte (P : Params) (key : ByteString) (x : Byte) {w : Stream} (hw : StreamShape P w) :
    StreamShape P (ctrByte P key x w).2 := by
  rw [ctrByte_eq]
  exact BufferedMode.streamShape_byte (P.encryptBlock_length key) (fun _ _ => inc_length P _) (fun _ _ _ _ => rfl) x hw

/-- The window of CFB8 stays a block, and neither the buffer nor the cursor is written (42_feedback_modes.md R183). -/
theorem streamShape_cfb8Byte (P : Params) (key : ByteString) (d : Dir) (x : Byte) {w : Stream} (hw : StreamShape P w) :
    StreamShape P (cfb8Byte P key d x w).2 :=
  ⟨(agreeOnBlocks_cfb8Byte (Q := P) (fun _ _ => rfl) d).keeps x w hw.iv_length, hw.ks_length, hw.pos_lt⟩

theorem cbcEncLoop_last_length (P : Params) (key : ByteString) (bs : List ByteString)
    (hbs : ∀ b ∈ bs, b.length = P.blockSize) (c : ByteString) (hc : c.length = P.blockSize) :
    (cbcEncLoop P key bs c).2.length = P.blockSize := by
  induction bs generalizing c with
  | nil => exact hc
  | cons b bs ih =>
    obtain ⟨hb, hbs⟩ := List.forall_mem_cons.mp hbs
    exact ih hbs _ (cbc_block_length P key hb hc)

theorem cbcDecLoop_last_length (P : Params) (key : ByteString) (bs : List ByteString)
    (hbs : ∀ b ∈ bs, b.length = P.blockSize) (c : ByteString) (hc : c.length = P.blockSize) :
    (cbcDecLoop P key bs c).2.length = P.blockSize := by
  induction bs generalizing c with
  | nil => exact hc
  | cons b bs ih =>
    obtain ⟨hb, hbs⟩ := List.forall_mem_cons.mp hbs
    exact ih hbs b hb

/-- An output put beside a stream gives back the output and that stream. -/
theorem eq_ok_of_map_eq_ok {r : Except ErrorKind ByteString} {out : ByteString} {w v : Stream}
    (h : r.map (·, w) = .ok (out, v)) : r = .ok out ∧ v = w := by
  cases r with
  | error e => cases h
  | ok y => cases h; exact ⟨rfl, rfl⟩

/-- A loop over bytes that keeps the widths makes a mode that does. -/
theorem streamShape_of_loopsOver {P : Params} {s : State} {d : Dir} {f : Byte → Stream → Byte × Stream}
    {data out : ByteString} {w v : Stream} (hf : LoopsOver P s d f) (h : ∀ x w, StreamShape P w → StreamShape P (f x w).2)
    (hw : StreamShape P w) (hmode : modeFn P s d data w = .ok (out, v)) : StreamShape P v := by
  have hv : forEachByte f data w = (out, v) := Except.ok.inj ((hf data w).symm.trans hmode)
  have hshape := forEachByte_keeps h data w hw
  rwa [hv] at hshape

/-- Every mode keeps the widths of the stream it runs on. -/
theorem streamShape_modeFn {P : Params} {s : State} {d : Dir} {data out : ByteString} {w v : Stream}
    (hw : StreamShape P w) (hmode : modeFn P s d data w = .ok (out, v)) : StreamShape P v := by
  cases hm : s.mode with
  | ecb =>
    rw [modeFn_ecb d data w hm] at hmode
    obtain ⟨-, rfl⟩ := eq_ok_of_map_eq_ok hmode
    exact hw
  | cbc =>
    cases d with
    | enc =>
      cases (modeFn_cbc_enc data w hm).symm.trans hmode
      exact ⟨cbcEncLoop_last_length P s.key _ (fun _ => length_of_mem_blocks) _ hw.iv_length, hw.ks_length, hw.pos_lt⟩
    | dec =>
      rw [modeFn_cbc_dec data w hm] at hmode
      obtain ⟨-, rfl⟩ := eq_ok_of_map_eq_ok hmode
      exact ⟨cbcDecLoop_last_length P s.key _ (fun _ => length_of_mem_blocks) _ hw.iv_length, hw.ks_length, hw.pos_lt⟩
  | cfb => exact streamShape_of_loopsOver (loopsOver_cfb P d hm) (fun x _ => streamShape_cfbByte P s.key d x) hw hmode
  | cfb8 => exact streamShape_of_loopsOver (loopsOver_cfb8 P d hm) (fun x _ => streamShape_cfb8Byte P s.key d x) hw hmode
  | ofb => exact streamShape_of_loopsOver (loopsOver_ofb P d hm) (fun x _ => streamShape_ofbByte P s.key x) hw hmode
  | ctr => exact streamShape_of_loopsOver (loopsOver_ctr P d hm) (fun x _ => streamShape_ctrByte P s.key x) hw hmode
  | stream =>
    cases (modeFn_stream d data w hm).symm.trans hmode
    exact ⟨hw.iv_length, hw.ks_length, hw.pos_lt⟩

/-! ### The invariant -/

theorem inv_reset : Inv Config.params State.reset where
  ivCfg_length := List.length_replicate
  ivCfg_unset _ := rfl
  enc_shape := ⟨List.length_replicate, List.length_replicate, Config.params.blockSize_pos⟩
  dec_shape := ⟨List.length_replicate, List.length_replicate, Config.params.blockSize_pos⟩
  rest := restInv_reset
  mode_supported := nofun
  key_unset _ := rfl
  key_length := nofun
  keyLen_lt := by decide
  keyLen_locked := nofun
  keyLen_key := nofun
  ksched_fresh := nofun
  backend_admitted := nofun
  changed_first := nofun

/-- Settles O13: every register holds its reset value, and nothing is set, valid or set up. -/
theorem resetMeetsInvariant : Obligations.ResetMeetsInvariant := inv_reset

/-- The invariant does not read the answers. -/
theorem inv_answer {P : Params} {s : State} (status : Status) (out : ByteString) (h : Inv P s) :
    Inv P (s.answer status out) := { h with }

/-- The invariant does not read the pending commands. -/
theorem inv_pending {P : Params} {s : State} (rest : List Command) (h : Inv P s) : Inv P { s with pending := rest } :=
  { h with }

/-- The invariant does not read `PAD_EN`. -/
theorem inv_setPadEn {P : Params} {s : State} (b : Bool) (h : Inv P s) : Inv P (setPadEn b s) := { h with }

/-- SET_IV's write of `IV_CFG` and `IV_SET` leaves the streams for the restart, so the invariant is asked only after it. -/
theorem inv_setIv {P : Params} {s : State} {v : ByteString} (hlen : v.length = P.blockSize) (h : Inv P s) :
    Inv P (resetStreams P { s with ivCfg := v, ivSet := true }) :=
  { h with
    ivCfg_length := hlen
    ivCfg_unset := nofun
    enc_shape := streamShape_fresh hlen
    dec_shape := streamShape_fresh hlen
    rest := restInv_resetStreams P _ }

theorem inv_setKey {P : Params} {s : State} {k : ByteString} (haccepts : acceptsKeyLength P s k.length = true)
    (h : Inv P s) : Inv P { s with key := k, keyLen := k.length, keySet := true, changed := true } :=
  have hlen := (acceptsKeyLength_iff.mp haccepts).1
  { h with
    key_unset := nofun
    key_length := fun _ => hlen
    keyLen_lt := P.keyLengths_lt _ hlen
    keyLen_locked := fun _ => hlen
    keyLen_key := fun _ _ => rfl
    ksched_fresh := nofun
    backend_admitted := nofun
    changed_first := nofun }

/-- The mode that SET_MODE selects is one the primitive can express (46_configuration.md R271). -/
theorem mem_supportedModes_of_selectedMode {P : Params} {code : BitVec 3} {m : Mode}
    (hm : selectedMode P code = some m) : m ∈ P.supportedModes := by
  obtain rfl | ⟨m', rfl⟩ := code_reserved_or_modeCode code
  · cases (selectedMode_reserved P).symm.trans hm
  · rw [selectedMode_modeCode] at hm
    split at hm <;> cases hm
    assumption

theorem inv_setMode {P : Params} {s : State} {code : BitVec 3} {m : Mode} (hm : selectedMode P code = some m)
    (h : Inv P s) : Inv P { s with mode := m, modeValid := true, changed := true } :=
  { h with
    mode_supported := fun _ => mem_supportedModes_of_selectedMode hm
    ksched_fresh := nofun
    backend_admitted := nofun
    changed_first := nofun }

theorem inv_setKeylen {P : Params} {s : State} {n : Nat} (hn : n ∈ P.keyLengths) (h : Inv P s) :
    Inv P { s with keyLen := n, keylenLock := true, changed := true } :=
  { h with
    keyLen_lt := P.keyLengths_lt n hn
    keyLen_locked := fun _ => hn
    keyLen_key := nofun
    ksched_fresh := nofun
    backend_admitted := nofun
    changed_first := nofun }

theorem inv_cbEnable {P : Params} {s : State} (h : Inv P s) :
    Inv P (drawBackend P { s with cbEn := true, enc := clearCursor s.enc, dec := clearCursor s.dec }) :=
  { h with
    enc_shape := streamShape_clearCursor h.enc_shape
    dec_shape := streamShape_clearCursor h.dec_shape
    rest := restInv_of_cbEn rfl
    backend_admitted := fun _ => select_drawBackend P { s with cbEn := true } }

theorem inv_cbDisable {P : Params} {s : State} (h : Inv P s) :
    Inv P (drawBackend P (resetStreams P { s with cbEn := false })) :=
  { h with
    enc_shape := streamShape_fresh h.ivCfg_length
    dec_shape := streamShape_fresh h.ivCfg_length
    rest := restInv_resetStreams P { s with cbEn := false }
    backend_admitted := fun _ => select_drawBackend P { s with cbEn := false } }

/-- The setup makes the key schedule and the backend fresh; it runs only after the configuration checks (R132, R138). -/
theorem inv_lazySetup {P : Params} {s : State} (hready : Ready s) (h : Inv P s) : Inv P (lazySetup P s) := by
  cases hc : s.changed with
  | false =>
    rw [lazySetup_of_unchanged P hc]
    exact h
  | true =>
    rw [lazySetup_of_changed P hc]
    exact { h with
      enc_shape := streamShape_fresh h.ivCfg_length
      dec_shape := streamShape_fresh h.ivCfg_length
      rest := restInv_setup P s
      ksched_fresh := fun _ => rfl
      backend_admitted := fun _ => select_drawBackend P s
      changed_first := fun _ => ⟨hready.mode, hready.keySet⟩ }

/-- A stream of the right widths can be written back: with `CB_EN = 1` no more is asked of it. -/
theorem inv_writeBack {P : Params} {s : State} {w : Stream} (d : Dir) (hw : StreamShape P w) (h : Inv P s) :
    Inv P (writeBack d w s) := by
  have hrest := restInv_writeBack d w h.rest
  cases hcb : s.cbEn with
  | false =>
    rw [writeBack_off hcb]
    exact h
  | true =>
    rw [writeBack_on hcb] at hrest ⊢
    cases d with
    | enc => exact { h with enc_shape := hw, rest := hrest }
    | dec => exact { h with dec_shape := hw, rest := hrest }

/-- Every successful command keeps the invariant. -/
theorem inv_of_succeeds {P : Params} {i : Instr} {s t : State} {out : ByteString} (hs : Succeeds P s i out t)
    (h : Inv P s) : Inv P t := by
  cases hs with
  | setKey haccepts => exact inv_setKey haccepts h
  | setIv hlen => exact inv_setIv hlen h
  | setMode hm => exact inv_setMode hm h
  | setKeylen hn => exact inv_setKeylen hn h
  | cbEnable => exact inv_cbEnable h
  | cbDisable => exact inv_cbDisable h
  | cbEnableAgain | cbDisableAgain => exact h
  | padEnable => exact inv_setPadEn true h
  | padDisable => exact inv_setPadEn false h
  | crypt hready _ hmode =>
    exact inv_writeBack _ (streamShape_modeFn (startStream_shape h _) hmode) (inv_lazySetup hready h)

/-- Settles O14: by the cases of a step, each of a successful command. -/
theorem stepKeepsInvariant : Obligations.StepKeepsInvariant := fun _ _ h hstep =>
  step_relation (R := fun s t => Inv Config.params s → Inv Config.params t) (fun _ => id)
    (fun _ _ status out ht hs => inv_answer status out (ht hs)) (fun _ _ rest ht hs => ht (inv_pending rest hs))
    (fun _ _ _ _ => inv_of_succeeds) hstep h

end Sys2Proof.Proofs
end

section
/-! PROOFS. Commands issued twice and commands swapped. No command reads the answers (00_scope.md R23), so a failed command fails
again (60_exceptions.md R310), a command other than ENCRYPT and DECRYPT writes again what it wrote (20_memory.md R78), and
SET_MODE, SET_KEY and SET_IV, which write different registers and do not read one another's, may be swapped
(70_reset_and_hazards.md R334). -/

namespace Sys2Proof.Proofs

open Sys2Proof.Machine Sys2Proof.Safety

/-! ### The answers are not read -/

theorem modeFn_answer (P : Params) (s : State) (status : Status) (o : ByteString) (d : Dir) (data : ByteString)
    (w : Stream) : modeFn P (s.answer status o) d data w = modeFn P s d data w :=
  modeFn_congr P d data w rfl rfl rfl rfl

theorem startStream_answer (P : Params) (d : Dir) (s : State) (status : Status) (o : ByteString) :
    startStream P d (s.answer status o) = startStream P d s := by
  cases d <;> rfl

theorem lazySetup_answer (P : Params) (s : State) (status : Status) (o : ByteString) :
    lazySetup P (s.answer status o) = (lazySetup P s).answer status o := by
  unfold lazySetup
  rw [answer_changed]
  split <;> rfl

theorem writeBack_answer (d : Dir) (w : Stream) (s : State) (status : Status) (o : ByteString) :
    writeBack d w (s.answer status o) = (writeBack d w s).answer status o := by
  unfold writeBack
  rw [answer_cbEn, ← answer_setStream]
  split <;> rfl

/-- What succeeds, succeeds with further answers, and carries them through. -/
theorem succeeds_answer {P : Params} {i : Instr} {s s' : State} {out : ByteString} (status : Status) (o : ByteString)
    (h : Succeeds P s i out s') : Succeeds P (s.answer status o) i out (s'.answer status o) := by
  cases h with
  | setKey haccepts => exact .setKey haccepts
  | setIv hlen => exact .setIv hlen
  | setMode hm => exact .setMode hm
  | setKeylen hn => exact .setKeylen hn
  | cbEnableAgain hon => exact .cbEnableAgain hon
  | cbEnable hoff => exact .cbEnable hoff
  | cbDisableAgain hoff => exact .cbDisableAgain hoff
  | cbDisable hon => exact .cbDisable hon
  | padEnable => exact .padEnable
  | padDisable => exact .padDisable
  | crypt hready hlen hmode =>
    rw [← writeBack_answer, ← lazySetup_answer]
    exact .crypt (ready_answer status o hready) hlen (by rwa [modeFn_answer, startStream_answer])

/-- What fails, fails with further answers. -/
theorem commandResult_error_answer {P : Params} {i : Instr} {s : State} {e : ErrorKind} (status : Status)
    (o : ByteString) (h : commandResult P i s = .error e) : commandResult P i (s.answer status o) = .error e := by
  obtain ⟨rfl, ⟨k, rfl, hk⟩ | ⟨n, rfl, hn⟩ | ⟨v, rfl, hv⟩⟩ | ⟨rfl, code, rfl, hcode⟩ | ⟨d, data, rfl, hc⟩ :=
    commandResult_error h
  · exact commandResult_setKey_of_not_accepts hk
  · exact commandResult_setKeylen_of_not_mem _ hn
  · exact commandResult_setIv_of_length_ne _ hv
  · simp only [commandResult, setModeCmd, hcode]
  · rw [commandResult_cryptInstr, crypt_error_iff, startStream_answer, modeFn_answer]
    have hfails := crypt_error_iff.mp hc
    exact hfails

/-- A command that raised an error raises it again. -/
theorem exec_raise_again {i : Instr} {s : State} {e : ErrorKind} (h : commandResult Config.params i s = .error e) :
    exec i (raise e s) = .next (raise e (raise e s)) :=
  exec_of_error (commandResult_error_answer (.error e) [] h)

/-- Settles O11: the error left every register, and the command reads nothing else. -/
theorem failedCommandFailsAgain : Obligations.FailedCommandFailsAgain := by
  intro i s t e ht ha
  obtain ⟨hr, rfl, -⟩ := exec_error ht ha
  exact exec_raise_again hr

/-! ### Twice in a row -/

/-- A command other than ENCRYPT and DECRYPT that succeeded succeeds again, and writes what stands there already. -/
theorem succeeds_again {P : Params} {i : Instr} {s s' : State} {out : ByteString}
    (hi : ∀ d data, i ≠ cryptInstr d data) (h : Succeeds P s i out s') : Succeeds P s' i out s' := by
  cases h with
  | setKey haccepts => exact .setKey (acceptsKeyLength_iff.mpr ⟨(acceptsKeyLength_iff.mp haccepts).1, fun _ => rfl⟩)
  | setIv hlen => exact .setIv hlen
  | setMode hm => exact .setMode hm
  | setKeylen hn => exact .setKeylen hn
  | cbEnableAgain hon => exact .cbEnableAgain hon
  | cbEnable => exact .cbEnableAgain rfl
  | cbDisableAgain hoff => exact .cbDisableAgain hoff
  | cbDisable => exact .cbDisableAgain rfl
  | padEnable => exact .padEnable
  | padDisable => exact .padDisable
  | crypt => exact absurd rfl (hi _ _)

/-- Settles O26: an error is raised again, and what succeeded writes again what it wrote. -/
theorem configurationIdempotent : Obligations.ConfigurationIdempotent := by
  intro i hi s t ht
  obtain ⟨e, hr, rfl⟩ | ⟨out, s', hs, rfl⟩ := exec_cases ht
  · exact ⟨_, raise_answers e s, exec_raise_again hr⟩
  · have hanswers := (commandResult_keeps_host (commandResult_ok_iff.mpr hs)).1
    have hagain := succeeds_answer .ok out (succeeds_again hi hs)
    exact ⟨⟨.ok, out⟩, by rw [answer_answers, hanswers], exec_of_ok (commandResult_ok_iff.mpr hagain)⟩

/-! ### In either order -/

/-- SET_MODE, SET_KEY and SET_IV, with any operands. -/
def setupCommands (code : BitVec 3) (k v : ByteString) : List Instr := [.setMode code, .setKey k, .setIv v]

/-- When one of the three succeeds (46_configuration.md R270, R271, 44_streaming_control.md R230). -/
def SetupAccepts (P : Params) (s : State) : Instr → Prop
  | .setMode code => (selectedMode P code).isSome = true
  | .setKey k => acceptsKeyLength P s k.length = true
  | .setIv v => v.length = P.blockSize
  | _ => False

/-- What it then leaves, its OK included. -/
def afterSetup (P : Params) (s : State) : Instr → State
  | .setMode code => { s with mode := (selectedMode P code).getD s.mode, modeValid := true, changed := true }.answer .ok []
  | .setKey k => { s with key := k, keyLen := k.length, keySet := true, changed := true }.answer .ok []
  | .setIv v => (resetStreams P { s with ivCfg := v, ivSet := true }).answer .ok []
  | _ => s

section
variable {P : Params} {code : BitVec 3} {k v : ByteString} {i j : Instr} (hi : i ∈ setupCommands code k v)
include hi

theorem eq_of_mem_setupCommands : i = .setMode code ∨ i = .setKey k ∨ i = .setIv v := by
  simpa [setupCommands] using hi

theorem finish_of_setupAccepts {s : State} (h : SetupAccepts P s i) :
    finish s (commandResult P i s) = afterSetup P s i := by
  obtain rfl | rfl | rfl := eq_of_mem_setupCommands hi
  · obtain ⟨m, hm⟩ := Option.isSome_iff_exists.mp h
    simp only [commandResult, setModeCmd, afterSetup, hm, finish_ok, Option.getD_some]
  · rw [commandResult_setKey_of_accepts h, finish_ok, afterSetup]
  · rw [commandResult_setIv_of_length_eq s h, finish_ok, afterSetup]

theorem setupAccepts_of_commandResult {s s' : State} {out : ByteString} (h : commandResult P i s = .ok (out, s')) :
    SetupAccepts P s i := by
  by_contra hnot
  obtain rfl | rfl | rfl := eq_of_mem_setupCommands hi
  · have hm : selectedMode P code = none := Option.not_isSome_iff_eq_none.mp hnot
    simp only [commandResult, setModeCmd, hm] at h
    cases h
  · cases (commandResult_setKey_of_not_accepts hnot).symm.trans h
  · cases (commandResult_setIv_of_length_ne s hnot).symm.trans h

/-- Two different ones of the three: neither reads for its acceptance what the other writes, and their writes commute. -/
theorem afterSetup_comm (hj : j ∈ setupCommands code k v) (hne : i ≠ j) (s : State) :
    (SetupAccepts P (afterSetup P s i) j ↔ SetupAccepts P s j) ∧
      afterSetup P (afterSetup P s i) j = afterSetup P (afterSetup P s j) i := by
  obtain rfl | rfl | rfl := eq_of_mem_setupCommands hi <;> obtain rfl | rfl | rfl := eq_of_mem_setupCommands hj
  case inl.inl | inr.inl.inr.inl | inr.inr.inr.inr => exact absurd rfl hne
  all_goals exact ⟨.rfl, rfl⟩

end

/-- One of the three answers OK exactly when it is accepted. -/
theorem exec_setup_iff {code : BitVec 3} {k v : ByteString} {i : Instr} (hi : i ∈ setupCommands code k v) {s t : State} :
    (exec i s = .next t ∧ t.answers = s.answers ++ [⟨.ok, []⟩]) ↔
      SetupAccepts Config.params s i ∧ t = afterSetup Config.params s i := by
  constructor
  · rintro ⟨ht, ha⟩
    obtain ⟨s', hr, -⟩ := exec_ok ht ha
    have haccepts := setupAccepts_of_commandResult hi hr
    rw [exec_eq_finish, finish_of_setupAccepts hi haccepts] at ht
    cases ht
    exact ⟨haccepts, rfl⟩
  · rintro ⟨haccepts, rfl⟩
    refine ⟨by rw [exec_eq_finish, finish_of_setupAccepts hi haccepts], ?_⟩
    obtain rfl | rfl | rfl := eq_of_mem_setupCommands hi
    all_goals rfl

/-- Settles O27: one command twice is in either order already, and two different ones commute. -/
theorem setupOrderIrrelevant : Obligations.SetupOrderIrrelevant := by
  intro code k v i j hi hj s t u hs has ht hat
  by_cases hne : i = j
  · subst hne
    exact ⟨t, hs, has, ht⟩
  obtain ⟨hacci, rfl⟩ := (exec_setup_iff hi).mp ⟨hs, has⟩
  obtain ⟨haccj, rfl⟩ := (exec_setup_iff hj).mp ⟨ht, hat⟩
  obtain ⟨hkeepj, hcomm⟩ := afterSetup_comm (P := Config.params) hi hj hne s
  obtain ⟨hkeepi, -⟩ := afterSetup_comm (P := Config.params) hj hi (Ne.symm hne) s
  obtain ⟨hs', has'⟩ := (exec_setup_iff hj).mpr ⟨hkeepj.mp haccj, rfl⟩
  obtain ⟨ht', -⟩ := (exec_setup_iff hi).mpr ⟨hkeepi.mpr hacci, hcomm⟩
  exact ⟨_, hs', has', ht'⟩

end Sys2Proof.Proofs
end

section
/-! PROOFS. The data commands as a whole (40_crypt.md R130 to R142): the setup and what it leaves, the frame, when they complete,
what a padded DECRYPT unpads, and the concatenation law. -/

namespace Sys2Proof.Proofs

open Sys2Proof.Machine Sys2Proof.Safety

/-! ### The setup and the frame -/

/-- Settles O33: an OK ends in the write-back over the setup, or over the state itself where none is due. -/
theorem lazySetupEffect : Obligations.LazySetupEffect := by
  intro d data out s t ht ha
  obtain ⟨-, -, w, -, rfl⟩ := exec_crypt_ok ht ha
  refine ⟨by simp, fun hc => ?_, fun hc => ?_⟩
  · rw [lazySetup_of_changed _ hc]
    refine ⟨by simp, by simpa using select_drawBackend Config.params s, fun d' hne => ?_, fun hcb => ?_⟩
    · rw [stream_answer, stream_writeBack_ne _ _ hne, stream_setup]
    · rw [stream_answer, writeBack_off (s := setup Config.params s) hcb, stream_setup]
  · rw [lazySetup_of_unchanged _ hc]
    exact ⟨by simp, by simp, by simp, fun d' hne => by rw [stream_answer, stream_writeBack_ne _ _ hne]⟩

/-- Settles O17: the setup, when due, makes both fresh, and when none is due the invariant says that they are. -/
theorem keyScheduleNeverStale : Obligations.KeyScheduleNeverStale := by
  intro d data out s t hi ht ha
  obtain ⟨hunchanged, hdue, hnotDue⟩ := lazySetupEffect d data out s t ht ha
  cases hc : s.changed with
  | true =>
    obtain ⟨hksched, hselect, -, -⟩ := hdue hc
    exact ⟨hunchanged, hksched, hselect⟩
  | false =>
    obtain ⟨hksched, hbackend, -, -⟩ := hnotDue hc
    rw [hksched, hbackend]
    exact ⟨hunchanged, hi.ksched_fresh hc, hi.backend_admitted hc⟩

/-- Settles O34: an error writes no register, and an OK those of the write-back over the setup. -/
theorem cryptFrame : Obligations.CryptFrame := by
  intro d data s t ht
  rw [exec_cryptInstr] at ht
  cases ht
  cases hr : crypt Config.params d data s with
  | error e => exact ⟨rfl, fun _ _ => ⟨rfl, rfl⟩⟩
  | ok p =>
    obtain ⟨out, s'⟩ := p
    obtain ⟨-, -, w, -, rfl⟩ := crypt_ok hr
    refine ⟨?_, fun hcb hc => ?_⟩
    · rw [finish_ok, writeBack_lazySetup_frame]
      rfl
    · rw [lazySetup_of_unchanged _ hc, writeBack_off hcb]
      exact ⟨rfl, rfl⟩

/-! ### Completion -/

/-- Settles O35: the checks pass, and a mode fails only by `Unpad`. -/
theorem cryptCompletesWhenReady : Obligations.CryptCompletesWhenReady := by
  intro d data s hr hl hpad
  cases hmode : modeFn Config.params s d data (startStream Config.params d s) with
  | error e =>
    obtain ⟨-, hd, hm, hp⟩ := modeFn_error hmode
    simp [hpad hd hm] at hp
  | ok p => exact ⟨_, p.1, exec_crypt_of hr hl hmode, by simp⟩

/-! ### What a padded DECRYPT unpads -/

theorem setPadEn_self {b : Bool} {s : State} (h : s.padEn = b) : setPadEn b s = s := by
  subst h
  rfl

/-- A DECRYPT in ECB or CBC that answers OK with `PAD_EN = 0` passed the checks, and its mode makes one string and one stream
of the data, whatever `PAD_EN` is, but for `Unpad` (41_block_modes.md R161, R163). -/
theorem exec_decrypt_unpadded {data y : ByteString} {s t : State} (hm : s.mode = .ecb ∨ s.mode = .cbc)
    (ht : exec (.decrypt data) (setPadEn false s) = .next t) (ha : t.answers = s.answers ++ [⟨.ok, y⟩]) :
    Ready s ∧ LengthOk Config.params .dec data s ∧
      ∃ v, t = (setPadEn false (writeBack .dec v (lazySetup Config.params s))).answer .ok y ∧
        ∀ b, modeFn Config.params (setPadEn b s) .dec data (startStream Config.params .dec s) =
          (unpadIfEnabled Config.params b y).map (·, v) := by
  obtain ⟨hr, hl, w, hw, rfl⟩ := exec_crypt_ok (d := .dec) ht ha
  obtain ⟨y', v, hmode⟩ := modeFn_dec_setPadEn Config.params data (startStream Config.params .dec s) hm
  obtain ⟨⟨⟩, rfl⟩ := eq_ok_of_map_eq_ok ((hmode false).symm.trans hw)
  rw [lazySetup_setPadEn, writeBack_setPadEn]
  exact ⟨⟨hr.mode, hr.keySet, hr.keyLen, hr.iv⟩, fun h _ => hl h (.inl rfl), w, rfl, hmode⟩

/-- Settles O36: with either `PAD_EN` the mode makes one string and one stream, and the commands differ in `Unpad` alone. -/
theorem paddedDecryptUnpads : Obligations.PaddedDecryptUnpads := by
  intro data y out s t hm hp ht ha
  obtain ⟨hr, hl, v, rfl, hmode⟩ := exec_decrypt_unpadded hm ht ha
  let u := writeBack .dec v (lazySetup Config.params s)
  have hpadded : modeFn Config.params s .dec data (startStream Config.params .dec s) =
      (unpadIfEnabled Config.params s.padEn y).map (·, v) := hmode s.padEn
  have hanswers : u.answers = s.answers := by simp [u]
  have hpadEn : u.padEn = true := by simp only [u]; rw [writeBack_lazySetup_frame]; exact hp
  have hstate : { (setPadEn false u).answer .ok y with padEn := true, answers := s.answers ++ [⟨.ok, out⟩] } =
      u.answer .ok out := by
    rw [← hanswers]
    exact congrArg (·.answer .ok out) (setPadEn_self hpadEn)
  rw [hstate]
  constructor
  · intro hout
    refine (exec_decrypt_of_unpad hr hl hpadded).1 out ?_
    rw [hp]
    exact hout
  · intro hexec
    obtain ⟨-, -, w, hw, -⟩ := exec_crypt_ok (d := .dec) hexec (by rw [answer_answers, hanswers])
    rw [hpadded, hp] at hw
    exact (eq_ok_of_map_eq_ok hw).1

/-! ### The concatenation law -/

/-- From stream `w` the mode makes of `a`, then of `b` from where `a` ended, the two parts of what it makes of `a ++ b`, and
ends where that ends. -/
def Concatenates (P : Params) (s : State) (d : Dir) (a b : ByteString) (w : Stream) : Prop :=
  ∃ o1 w1 o2 w2, modeFn P s d a w = .ok (o1, w1) ∧ modeFn P s d b w1 = .ok (o2, w2) ∧
    modeFn P s d (a ++ b) w = .ok (o1 ++ o2, w2)

theorem concatenates_of_loopsOver {P : Params} {s : State} {d : Dir} {f : Byte → Stream → Byte × Stream}
    (hf : LoopsOver P s d f) (a b : ByteString) (w : Stream) : Concatenates P s d a b w :=
  ⟨_, _, _, _, hf a w, hf b _, by rw [hf, forEachByte_append]⟩

/-- Unpadded ECB is block by block, and whole blocks joined are the blocks of both (20_memory.md R72). -/
theorem concatenates_ecb {P : Params} {s : State} (d : Dir) {a : ByteString} (b : ByteString) (w : Stream)
    (hm : s.mode = .ecb) (hp : s.padEn = false) (ha : a.length % P.blockSize = 0) : Concatenates P s d a b w := by
  have hblocks := blocks_append P.blockSize_pos b a ha
  cases d with
  | enc =>
    refine ⟨_, _, _, _, modeFn_ecb .enc a w hm, modeFn_ecb .enc b w hm, (modeFn_ecb .enc (a ++ b) w hm).trans ?_⟩
    simp [ecbResult, ecbEnc, hp, padIfEnabled, hblocks, Except.map]
  | dec =>
    have hdec : ∀ data, modeFn P s .dec data w = .ok ((blocks P.blockSize data).flatMap (P.decryptBlock s.key), w) :=
      fun data => by simp [modeFn_ecb .dec data w hm, ecbResult, ecbDec, hp, unpadIfEnabled, Except.map]
    exact ⟨_, _, _, _, hdec a, hdec b, by rw [hdec, hblocks, List.flatMap_append]⟩

/-- Unpadded CBC chains through whole blocks joined. -/
theorem concatenates_cbc {P : Params} {s : State} (d : Dir) {a : ByteString} (b : ByteString) (w : Stream)
    (hm : s.mode = .cbc) (hp : s.padEn = false) (ha : a.length % P.blockSize = 0) : Concatenates P s d a b w := by
  have hblocks := blocks_append P.blockSize_pos b a ha
  cases d with
  | enc =>
    refine ⟨_, _, _, _, modeFn_cbc_enc a w hm, modeFn_cbc_enc b _ hm, (modeFn_cbc_enc (a ++ b) w hm).trans ?_⟩
    simp only [hp, padIfEnabled, Bool.false_eq_true, if_false, hblocks, cbcEncLoop_append]
  | dec =>
    have hdec : ∀ data v, modeFn P s .dec data v =
        let r := cbcDecLoop P s.key (blocks P.blockSize data) v.iv
        .ok (r.1, { v with iv := r.2 }) :=
      fun data v => by simp [modeFn_cbc_dec data v hm, hp, unpadIfEnabled, Except.map]
    exact ⟨_, _, _, _, hdec a w, hdec b _, by rw [hdec, hblocks, cbcDecLoop_append]⟩

/-- STREAM concatenates where the primitive itself does (42_feedback_modes.md R190). -/
theorem concatenates_stream {P : Params} {s : State} {d : Dir} {a b : ByteString} {w : Stream} (hm : s.mode = .stream)
    (hx : let x := P.streamXform d (w.sst.getD (P.streamInit s.key s.ivCfg))
      let y := P.streamXform d (x a).2 b
      x (a ++ b) = ((x a).1 ++ y.1, y.2)) : Concatenates P s d a b w := by
  refine ⟨_, _, _, _, modeFn_stream d a w hm, modeFn_stream d b _ hm, ?_⟩
  rw [modeFn_stream d (a ++ b) w hm, hx]
  rfl

/-- Where a mode concatenates from the stream of the direction, two data commands with `CB_EN = 1` and no setup due answer
the parts of what one command answers, and leave its stream. -/
theorem exec_concatenates {d : Dir} {a b : ByteString} {s : State} (hr : Ready s) (hcb : s.cbEn = true)
    (hc : s.changed = false) (hla : LengthOk Config.params d a s) (hlb : LengthOk Config.params d b s)
    (hlab : LengthOk Config.params d (a ++ b) s) (h : Concatenates Config.params s d a b (s.stream d)) :
    ∃ s1 s2 s3 o1 o2,
      exec (cryptInstr d a) s = .next s1 ∧ s1.answers = s.answers ++ [⟨.ok, o1⟩] ∧
      exec (cryptInstr d b) s1 = .next s2 ∧ s2.answers = s1.answers ++ [⟨.ok, o2⟩] ∧
      exec (cryptInstr d (a ++ b)) s = .next s3 ∧ s3.answers = s.answers ++ [⟨.ok, o1 ++ o2⟩] ∧
      s3.stream d = s2.stream d := by
  obtain ⟨o1, w1, o2, w2, ha, hb, hab⟩ := h
  have hstart : startStream Config.params d s = s.stream d := if_pos ⟨hcb, hc⟩
  let s1 := (writeBack d w1 (lazySetup Config.params s)).answer .ok o1
  have hcb1 : s1.cbEn = true := by simpa [s1] using hcb
  have hstart1 : startStream Config.params d s1 = w1 :=
    (if_pos ⟨hcb1, by simp [s1]⟩).trans (stream_of_writeBack hcb)
  have hb1 : modeFn Config.params s1 d b (startStream Config.params d s1) = .ok (o2, w2) := by
    rw [hstart1, modeFn_answer, modeFn_writeBack_lazySetup, hb]
  refine ⟨s1, _, _, o1, o2, exec_crypt_of hr hla (hstart ▸ ha), by simp [s1],
    exec_crypt_of (ready_answer .ok o1 (ready_writeBack_lazySetup _ d w1 hr)) (lengthOk_writeBack_lazySetup d d w1 hlb) hb1,
    by simp, exec_crypt_of hr hlab (hstart ▸ hab), by simp, ?_⟩
  rw [stream_of_writeBack hcb, stream_of_writeBack hcb1]

/-- Settles O54: each mode concatenates where the law asks it to, and the lengths pass the checks. -/
theorem concatenationLaw : Obligations.ConcatenationLaw := by
  rintro d a b s hr hcb hc (hm | ⟨hm, hp, ha, hb⟩ | ⟨hm, hx⟩)
  · obtain ⟨f, hf⟩ := exists_loopsOver Config.params d hm
    have hpad := paddable_eq_false (List.mem_append_left [.stream] hm)
    have hl : ∀ data, LengthOk Config.params d data s := fun _ => lengthOk_of_not_paddable hpad
    exact exec_concatenates hr hcb hc (hl a) (hl b) (hl _) (concatenates_of_loopsOver hf a b _)
  · have hab : (a ++ b).length % Config.params.blockSize = 0 := by simp [Nat.add_mod, ha, hb]
    refine exec_concatenates hr hcb hc (fun _ _ => ha) (fun _ _ => hb) (fun _ _ => hab) ?_
    obtain hm | hm : s.mode = .ecb ∨ s.mode = .cbc := by simpa using hm
    · exact concatenates_ecb d b _ hm hp ha
    · exact concatenates_cbc d b _ hm hp ha
  · have hl : ∀ data, LengthOk Config.params d data s := fun _ => lengthOk_of_not_paddable (by rw [hm]; rfl)
    exact exec_concatenates hr hcb hc (hl a) (hl b) (hl _) (concatenates_stream hm hx)

end Sys2Proof.Proofs
end

section
/-! PROOFS. The assembler (30_encoding.md R113): the parser reads exactly the line forms. A line splits at its first space, no
mnemonic holds a space, and each operand's parser is exact by its law. -/

namespace Sys2Proof.Proofs

open Sys2Proof.Machine Sys2Proof.Safety

/-! ### The modes -/

/-- The name of a mode, as SET_MODE's operand writes it (R113). -/
def modeName : Mode → List Char
  | .ecb => "ECB".toList
  | .cbc => "CBC".toList
  | .cfb => "CFB".toList
  | .cfb8 => "CFB8".toList
  | .ofb => "OFB".toList
  | .ctr => "CTR".toList
  | .stream => "STREAM".toList

/-- All that `parseMode` accepts, and what it then gives. -/
theorem parseMode_iff (text : List Char) (m : Mode) : parseMode text = some m ↔ text = modeName m := by
  constructor
  · intro h
    unfold parseMode at h
    split_ifs at h with h1 h2 h3 h4 h5 h6 h7 <;> cases h <;> assumption
  · rintro rfl
    cases m <;> decide

theorem lineForm_setMode (m : Mode) : LineForm ("SET_MODE".toList ++ ' ' :: modeName m) (.setMode (modeCode m)) := by
  cases m with
  | ecb => exact .ecb
  | cbc => exact .cbc
  | cfb => exact .cfb
  | cfb8 => exact .cfb8
  | ofb => exact .ofb
  | ctr => exact .ctr
  | stream => exact .stream

/-! ### From a line to its form -/

theorem lineForm_of_parseBare {line : List Char} {i : Instr} (h : parseBare line = some i) : LineForm line i := by
  unfold parseBare at h
  split_ifs at h with h1 h2 h3 h4 <;> cases h <;> subst line
  · exact .cbEnable
  · exact .cbDisable
  · exact .padEnable
  · exact .padDisable

theorem lineForm_of_parseWithOperand {mnemonic operand : List Char} {i : Instr}
    (h : parseWithOperand mnemonic operand = some i) : LineForm (mnemonic ++ ' ' :: operand) i := by
  unfold parseWithOperand at h
  split_ifs at h with h1 h2 h3 h4 h5 h6 <;> obtain ⟨x, hx, rfl⟩ := Option.map_eq_some_iff.mp h <;> subst mnemonic
  · obtain rfl := (parseMode_iff operand x).mp hx
    exact lineForm_setMode x
  · exact .setKeylen ((parseLength_iff operand x).mp hx)
  · exact .setKey ((parseHex_iff operand x).mp hx)
  · exact .setIv ((parseHex_iff operand x).mp hx)
  · exact .encrypt ((parseHex_iff operand x).mp hx)
  · exact .decrypt ((parseHex_iff operand x).mp hx)

theorem lineForm_of_parseLine {line : List Char} {i : Instr} (h : parseLine line = some i) : LineForm line i := by
  have hline := line_of_splitLine line
  unfold parseLine at h
  cases hs : splitLine line with
  | mk mnemonic operand =>
    rw [hs] at h hline
    cases operand with
    | none =>
      obtain rfl : line = mnemonic := hline
      exact lineForm_of_parseBare h
    | some operand =>
      obtain rfl : line = mnemonic ++ ' ' :: operand := hline
      exact lineForm_of_parseWithOperand h

/-! ### From a form to its line -/

theorem parseLine_append {mnemonic : List Char} (operand : List Char) (h : ' ' ∉ mnemonic) :
    parseLine (mnemonic ++ ' ' :: operand) = parseWithOperand mnemonic operand := by
  rw [parseLine, splitLine_append h]

theorem parseLine_setMode (m : Mode) :
    parseLine ("SET_MODE".toList ++ ' ' :: modeName m) = some (.setMode (modeCode m)) := by
  rw [parseLine_append _ (by decide)]
  simp [parseWithOperand, (parseMode_iff _ m).mpr rfl]

theorem parseLine_of_lineForm {line : List Char} {i : Instr} (h : LineForm line i) : parseLine line = some i := by
  cases h with
  | setKey hp | setIv hp | encrypt hp | decrypt hp =>
    rw [parseLine_append _ (by decide)]
    simp [parseWithOperand, (parseHex_iff _ _).mpr hp]
  | setKeylen hn =>
    rw [parseLine_append _ (by decide)]
    simp [parseWithOperand, (parseLength_iff _ _).mpr hn]
  | ecb => exact parseLine_setMode .ecb
  | cbc => exact parseLine_setMode .cbc
  | cfb => exact parseLine_setMode .cfb
  | cfb8 => exact parseLine_setMode .cfb8
  | ofb => exact parseLine_setMode .ofb
  | ctr => exact parseLine_setMode .ctr
  | stream => exact parseLine_setMode .stream
  | cbEnable | cbDisable | padEnable | padDisable => decide

/-- All that `parseLine` accepts, and what it then gives. -/
theorem parseLine_iff (line : List Char) (i : Instr) : parseLine line = some i ↔ LineForm line i :=
  ⟨lineForm_of_parseLine, parseLine_of_lineForm⟩

/-! ### Assembling -/

/-- No line form is a comment: each begins with a letter. -/
theorem head?_ne_of_lineForm {line : List Char} {i : Instr} (h : LineForm line i) : line.head? ≠ some ';' := by
  cases h <;> simp

/-- The one operand with a bound is SET_KEYLEN's, and its form has the bound (R105, R113). -/
theorem wf_of_lineForm {line : List Char} {i : Instr} (h : LineForm line i) : i.wf = true := by
  cases h with
  | setKeylen hn =>
    obtain ⟨_, -, -, -, -, hlt⟩ := hn
    exact decide_eq_true hlt
  | _ => rfl

theorem assemble_of_lineForm {line : List Char} {i : Instr} (h : LineForm line i) :
    assemble line = some (.command (encode i)) := by
  rw [assemble, if_neg (head?_ne_of_lineForm h), (parseLine_iff line i).mpr h, Option.map_some]

theorem lineForm_of_assemble {line : List Char} {c : Command} (h : assemble line = some (.command c)) :
    ∃ i, LineForm line i ∧ c = encode i := by
  unfold assemble at h
  split at h
  · cases h
  · obtain ⟨i, hi, hc⟩ := Option.map_eq_some_iff.mp h
    cases hc
    exact ⟨i, (parseLine_iff line i).mp hi, rfl⟩

/-- Settles O5: the parser reads exactly the line forms, and the round trip of the encoding does the rest. -/
theorem assembledLineIsOneCommand : Obligations.AssembledLineIsOneCommand :=
  ⟨fun _ _ h => ⟨assemble_of_lineForm h, wf_of_lineForm h, decode_encode (wf_of_lineForm h)⟩,
    fun _ _ => lineForm_of_assemble, fun _ => if_pos rfl⟩

end Sys2Proof.Proofs
end
